-- ==== Sys2Proof/Word.lean ====
section
/-! DEFINITION. The block's two data widths (00_scope R8): an unsigned byte and an unsigned 32-bit word. -/

namespace Sys2Proof

/-- A word: 32 bits, unsigned, arithmetic modulo 2^32 (R8). -/
abbrev Word := BitVec 32

/-- A byte: 8 bits, unsigned (R8). -/
abbrev Byte := BitVec 8

end Sys2Proof
end

