-- ==== Sys2Proof/Config.lean ====
section
/-! DEFINITION. What an implementation fixes (the spec's two OPEN parameters) and the one free value. -/

namespace Sys2Proof

/-- The spec's OPEN parameters: BUF_BLOCKS (R9) and BASE (R11).
The model takes them as an argument of `State.resetOf`; no step changes them. -/
structure Config where
  /-- BUF_BLOCKS: the capacity of M in 64-byte blocks (R9). -/
  bufBlocks : Nat
  /-- BASE: the host byte address of offset 0 (R11). -/
  base : Nat
  deriving DecidableEq, Repr

/-- The ranges R9 and R11 give the parameters. -/
abbrev Config.wf (c : Config) : Prop :=
  1 ≤ c.bufBlocks ∧ c.bufBlocks ≤ 2 ^ 24 ∧ c.base % 2 ^ 31 = 0

/-- BUF_BYTES = 64 * BUF_BLOCKS, the number of bytes of M (R9). -/
def Config.bufBytes (c : Config) : Nat := 64 * c.bufBlocks

/-- DESIGN CHOICE (logs 1 and 2; unsafe for a claim about `State.reset` that rests on the numbers): the parameters of
`State.reset`, BUF_BLOCKS = 4 as in the programs of 95_test_vectors section 8, and BASE = 0. -/
def Config.reference : Config := ⟨4, 0⟩

/-- The n-th free value (a "draw", R18, R75, R281): 32 bits nothing constrains.
Safe (log 3): a claim about the model holds whatever this function is. -/
opaque Config.draw : Nat → Word

end Sys2Proof
end

