-- ==== Sys2Proof/Machine/Constants.lean ====
section
/-! DEFINITION. The constant tables, which are configuration and not state (10_state R20): IV, K and the ID word.
The values of IV and K are what R170 and R171 state; the spec itself marks them as general knowledge (log 13). -/

namespace Sys2Proof.Machine

/-- IV[0..4], the initial digest (R170). -/
def iv : Vector Word 5 := #v[0x67452301, 0xEFCDAB89, 0x98BADCFE, 0x10325476, 0xC3D2E1F0]

/-- K[s], the round constant of each 20-round stage (R171). -/
def roundConst : Fin 4 → Word
  | 0 => 0x5A827999
  | 1 => 0x6ED9EBA1
  | 2 => 0x8F1BBCDC
  | 3 => 0xCA62C1D6

/-- The constant the ID register reads (R22). -/
def idValue : Word := 0x53484131

end Sys2Proof.Machine
end

