-- ==== Sys2Proof/Syntax.lean ====
section
/-! DEFINITION. The eleven commands (30_encoding R102), one constructor per row of the opcode table, and the
errors a command can end with (60_exceptions R240). -/

namespace Sys2Proof

/-- A command. Only SCHED has an operand, the block index b (R101, R108). -/
inductive Instr where
  | nop
  | init
  | pad
  | sched (b : Nat)
  | expand
  | loadw
  | round
  | feedfwd
  | compress
  | encode
  | hash
  deriving DecidableEq, Repr

/-- The error codes 0x01 to 0x07 of R240, each under the spec's own name. -/
inductive CmdError where
  /-- E_ILLEGAL_OPCODE: a reserved opcode (R106). -/
  | illegalOpcode
  /-- E_BAD_OPERAND: a nonzero imm24 on a command other than SCHED (R106). -/
  | badOperand
  /-- E_LEN_OVERFLOW: LEN ≥ 2^61 (R131). -/
  | lenOverflow
  /-- E_CAPACITY: the padded length exceeds BUF_BYTES (R131). -/
  | capacity
  /-- E_BLOCK_RANGE: the block index is not below PLEN div 64 (R153). -/
  | blockRange
  /-- E_ROUND_OVERRUN: ROUND after all 80 rounds (R176). -/
  | roundOverrun
  /-- E_ROUND_INCOMPLETE: FEEDFWD before all 80 rounds (R177). -/
  | roundIncomplete
  deriving DecidableEq, Repr

end Sys2Proof
end

