-- ==== Sys2Proof/Machine/State.lean ====
section
/-! DEFINITION. The state of SHA1-CORE as plain data (10_state R20), the reasons a step can stop, and reset
(70_reset_and_hazards R280). -/

namespace Sys2Proof.Machine

/-- An element of M, W or HEX (R281): after reset it is unwritten, and a read of it is a fresh draw; once written it
reads as the value written. "Unwritten" is the spec's own state, not a missing reset value (log 3). -/
inductive Elem (α : Type) where
  | unwritten
  | written (v : α)
  deriving DecidableEq, Repr

/-- CTRL (R23): bit 0 is IE; the reserved bits hold nothing and read 0 (log 11). -/
structure Ctrl where
  ie : Bool
  deriving DecidableEq, Repr

/-- STATUS (R24): BUSY, DONE, ERR, BUSERR and ERRCODE; the reserved bits hold nothing and read 0 (log 11). -/
structure Status where
  busy : Bool
  done : Bool
  err : Bool
  buserr : Bool
  errcode : BitVec 8
  deriving DecidableEq, Repr

/-- The working registers A, B, C, D, E (R33). -/
structure Working where
  a : Word
  b : Word
  c : Word
  d : Word
  e : Word
  deriving DecidableEq, Repr

/-- M (R36): the written bytes as (index, byte) pairs, the indices strictly rising; an unlisted byte is unwritten. -/
abbrev Memory := List Host.Cell

/-- The canonical form of M: strictly rising indices. No byte equals what an unlisted one reads as (a draw), so
there is nothing else to exclude. -/
abbrev Memory.wf (m : Memory) : Prop := m.Pairwise (fun x y => x.1 < y.1)

/-- The two sizes of a host access (R60). -/
inductive Size where
  | byte
  | word
  deriving DecidableEq, Repr

/-- The response of an access (R60). -/
inductive Resp where
  | okay
  | error
  deriving DecidableEq, Repr

/-- What an access answers: a read gives (rdata, resp), a write gives resp (R16, R60). -/
inductive Reply where
  | read (rdata : Word) (resp : Resp)
  | write (resp : Resp)
  deriving DecidableEq, Repr

/-- One step of the world around the block (R76): an access by HOST at a host byte address (R61), a turn for CORE
(R105), or the platform's reset (R280). -/
inductive Event where
  | read (addr : Nat) (size : Size)
  | write (addr : Nat) (size : Size) (wdata : Word)
  | core
  | reset
  deriving DecidableEq, Repr

/-- The state: the tuple of R20, the parameters, and three fields of the model's own (agenda, reply, draws). -/
structure State where
  /-- The parameters BUF_BLOCKS and BASE (R9, R11, R31). -/
  cfg : Config
  /-- CTRL (R23). -/
  ctrl : Ctrl
  /-- STATUS (R24). -/
  status : Status
  /-- ERRCMD (R27). -/
  errcmd : Word
  /-- LEN_LO (R28). -/
  lenLo : Word
  /-- LEN_HI (R28). -/
  lenHi : Word
  /-- PLEN (R29). -/
  plen : Word
  /-- RCNT bits 6:0 (R30). -/
  rcnt : BitVec 7
  /-- H0..H4 (R32). -/
  h : Vector Word 5
  /-- A..E (R33). -/
  wk : Working
  /-- W[0..79] (R34). -/
  w : Vector (Elem Word) 80
  /-- HEX[0..39] (R35). -/
  hex : Vector (Elem Byte) 40
  /-- M (R36). -/
  mem : Memory
  /-- PENDING (R38). -/
  pending : Option Word
  /-- The interrupt output (R39). -/
  irq : Bool
  /-- The model's own: the steps the outside world takes next, in order (log 6). -/
  agenda : List Event
  /-- The model's own: the response of the last access (log 8). -/
  reply : Option Reply
  /-- The model's own: how many free values have been drawn (log 4). -/
  draws : Nat
  deriving DecidableEq, Repr

/-- SHA1-CORE has no stop: an error is recorded in STATUS and the block goes on (R246), and every command completes
(R224, R242). So this type has no constructor, and no meaning raises a fault (log 24). -/
inductive Fault where
  deriving DecidableEq, Repr

/-- Why a step has no meaning. -/
inductive Refusal where
  /-- Raised by an arm of `exec` whose command is not modelled yet; safe. No arm raises it. -/
  | notModelled (mnemonic : String)
  deriving DecidableEq, Repr

/-- A..E := five words in order. -/
def Working.ofVec (v : Vector Word 5) : Working := ⟨v[0], v[1], v[2], v[3], v[4]⟩

/-- The state right after reset for the parameters `c` (R280, the reset values of R21, R281 and R282). -/
def State.resetOf (c : Config) : State where
  cfg := c
  ctrl := ⟨false⟩
  status := ⟨false, false, false, false, 0⟩
  errcmd := 0
  lenLo := 0
  lenHi := 0
  plen := 0
  rcnt := 0
  h := iv
  wk := Working.ofVec iv
  w := Vector.replicate 80 .unwritten
  hex := Vector.replicate 40 .unwritten
  mem := []
  pending := none
  irq := false
  agenda := []
  reply := none
  draws := 0

/-- The state right after reset, for the parameters of `Config.reference` (DESIGN CHOICE, logs 1 and 2). -/
def State.reset : State := State.resetOf Config.reference

end Sys2Proof.Machine
end

