-- ==== Sys2Proof/Machine/Flags.lean ====
section
/-! DEFINITION. The flags: the words CTRL and STATUS read as, what writes, acceptance and completion do to them, the
error codes, and the interrupt level. -/

namespace Sys2Proof.Machine

/-- CTRL as the host reads it: IE in bit 0, the reserved bits 0 (R23). -/
def Ctrl.word (c : Ctrl) : Word := 0#31 ++ BitVec.ofBool c.ie

/-- A write of v to CTRL: IE takes v[0]; the reserved bits ignore the write (R23). -/
def Ctrl.ofWord (v : Word) : Ctrl := ⟨v.getLsbD 0⟩

/-- STATUS as the host reads it (R24). -/
def Status.word (t : Status) : Word :=
  0#16 ++ t.errcode ++ 0#4 ++ BitVec.ofBool t.buserr ++ BitVec.ofBool t.err ++ BitVec.ofBool t.done ++ BitVec.ofBool t.busy

/-- A write of v to STATUS clears DONE, ERR and BUSERR where v has a 1 (R25). -/
def Status.clear (v : Word) (t : Status) : Status :=
  { t with
    done := t.done && !v.getLsbD 1
    err := t.err && !v.getLsbD 2
    buserr := t.buserr && !v.getLsbD 3 }

/-- Acceptance of a command sets BUSY and clears DONE (R104). -/
def Status.accepted (t : Status) : Status := { t with busy := true, done := false }

/-- A bus error sets BUSERR (R70). -/
def Status.busError (t : Status) : Status := { t with buserr := true }

end Sys2Proof.Machine

namespace Sys2Proof

/-- The code of each error (R240). -/
def CmdError.code : CmdError → BitVec 8
  | .illegalOpcode => 0x01
  | .badOperand => 0x02
  | .lenOverflow => 0x03
  | .capacity => 0x04
  | .blockRange => 0x05
  | .roundOverrun => 0x06
  | .roundIncomplete => 0x07

end Sys2Proof

namespace Sys2Proof.Machine

/-- The code a completion writes: 0x00 (E_NONE) for success (R240, R242). -/
def resultCode : Option CmdError → BitVec 8
  | none => 0x00
  | some e => e.code

/-- Completion clears BUSY, sets DONE, writes ERRCODE, and sets ERR for an error only (R242). -/
def Status.completed (r : Option CmdError) (t : Status) : Status :=
  { t with busy := false, done := true, err := t.err || r.isSome, errcode := resultCode r }

/-- irq = CTRL.IE AND STATUS.DONE (R39, R250). -/
def irqLevel (c : Ctrl) (t : Status) : Bool := c.ie && t.done

end Sys2Proof.Machine
end

