-- ==== Sys2Proof/Machine/Ops.lean ====
section
/-! DEFINITION. The named operations over the state: one update per field, the message buffer, free values, and the
shared ends of a step: acceptance (R104), completion with or without an error (R242, R243), bus error (R70), reset (R280). -/

namespace Sys2Proof.Machine

/-! ## One update per field -/

def State.setCtrl (v : Ctrl) (s : State) : State := { s with ctrl := v }
def State.setStatus (v : Status) (s : State) : State := { s with status := v }
def State.setErrcmd (v : Word) (s : State) : State := { s with errcmd := v }
def State.setLenLo (v : Word) (s : State) : State := { s with lenLo := v }
def State.setLenHi (v : Word) (s : State) : State := { s with lenHi := v }
def State.setPlen (v : Word) (s : State) : State := { s with plen := v }
def State.setRcnt (v : BitVec 7) (s : State) : State := { s with rcnt := v }
def State.setH (v : Vector Word 5) (s : State) : State := { s with h := v }
def State.setWk (v : Working) (s : State) : State := { s with wk := v }
def State.setWAll (v : Vector (Elem Word) 80) (s : State) : State := { s with w := v }
def State.setHex (v : Vector (Elem Byte) 40) (s : State) : State := { s with hex := v }
def State.setMem (v : Memory) (s : State) : State := { s with mem := v }
def State.setPending (v : Option Word) (s : State) : State := { s with pending := v }
def State.setIrq (v : Bool) (s : State) : State := { s with irq := v }
def State.setAgenda (v : List Event) (s : State) : State := { s with agenda := v }
def State.setReply (v : Option Reply) (s : State) : State := { s with reply := v }
def State.setDraws (v : Nat) (s : State) : State := { s with draws := v }

/-! ## The message buffer M (R15, R36) -/

/-- M[o] as an element: unwritten where no byte is listed (R281). -/
def Memory.find : Memory → Nat → Elem Byte
  | [], _ => .unwritten
  | (a, v) :: m, o => if a = o then .written v else Memory.find m o

/-- MemWrite(o, 1, v) (R15), keeping the indices strictly rising. -/
def Memory.write : Memory → Nat → Byte → Memory
  | [], o, v => [(o, v)]
  | (a, x) :: m, o, v =>
    if o < a then (o, v) :: (a, x) :: m
    else if o = a then (o, v) :: m
    else (a, x) :: Memory.write m o v

/-- Consecutive bytes written upward from o. -/
def Memory.store (m : Memory) (o : Nat) : List Byte → Memory
  | [] => m
  | v :: vs => Memory.store (Memory.write m o v) (o + 1) vs

/-- Byte j of a word counted from the most significant one (R15, R69). -/
def wordByte (v : Word) (j : Nat) : Byte := v.extractLsb' (24 - 8 * j) 8

/-- The four bytes of a word in memory order, most significant first (R15, R69). -/
def wordBytes (v : Word) : List Byte := [wordByte v 0, wordByte v 1, wordByte v 2, wordByte v 3]

/-- Four bytes as a word, the first the most significant (R15, R69). -/
def ofBytes (b0 b1 b2 b3 : Byte) : Word := b0 ++ b1 ++ b2 ++ b3

/-! ## Word operators (R14) -/

/-- rotl(x, n) for 0 < n < 32 (R14). -/
def rotl (x : Word) (n : Nat) : Word := (x <<< n) ||| (x >>> (32 - n))

/-! ## Free values (R18, R75, R281) -/

/-- A read of an element: the value written, or, of an unwritten one, a fresh free value (R281; logs 3 and 5). -/
def State.readElem {n : Nat} (x : Elem (BitVec n)) (s : State) : BitVec n × State :=
  match x with
  | .written v => (v, s)
  | .unwritten => ((Config.draw s.draws).setWidth n, s.setDraws (s.draws + 1))

/-! ## The ends of a step -/

/-- irq is recomputed after every step of either agent (R39). -/
def State.refreshIrq (s : State) : State := s.setIrq (irqLevel s.ctrl s.status)

/-- Acceptance of the command word v (R104). -/
def State.accept (v : Word) (s : State) : State := (s.setPending (some v)).setStatus s.status.accepted

/-- Completion of the command word cmd (R242): with `none` as a success, with `some e` as the error e. This is the
block's whole error entry: nothing is saved but ERRCODE and ERRCMD, and no control is redirected (R246). -/
def State.complete (cmd : Word) (r : Option CmdError) (s : State) : State :=
  (((s.setPending none).setStatus (s.status.completed r)).setErrcmd (if r.isSome then cmd else s.errcmd)).refreshIrq

/-- `raise E_X(cmd)` (R15, R243): the command ends at once, with no effect but the completion fields. -/
def raiseError (cmd : Word) (e : CmdError) (s : State) : Host.Outcome State Fault Refusal :=
  .next (s.complete cmd (some e))

/-- The CORE step of a command whose checks and effect are `r` (R105, R243): an error leaves the state before the
command, a success leaves its effect; both complete. -/
def perform (cmd : Word) (r : Except CmdError State) (s : State) : Host.Outcome State Fault Refusal :=
  match r with
  | .error e => raiseError cmd e s
  | .ok t => .next (t.complete cmd none)

/-- A refused access changes only STATUS.BUSERR (R70). -/
def State.busError (s : State) : State := s.setStatus s.status.busError

/-- The platform's reset (R280). The parameters stay, and so do the model's own fields (log 17). -/
def State.applyReset (s : State) : State :=
  (((State.resetOf s.cfg).setAgenda s.agenda).setReply s.reply).setDraws s.draws

/-- The command CORE takes up: PENDING (R105). -/
def State.fetch (s : State) : Option Word := s.pending

end Sys2Proof.Machine
end

