-- ==== Sys2Proof/Machine/Operands.lean ====
section
/-! DEFINITION. What the commands read and write: LEN, the block count, and single elements of M, W and HEX. -/

namespace Sys2Proof.Machine

/-- LEN = LEN_HI || LEN_LO (R28). -/
def State.len (s : State) : BitVec 64 := s.lenHi ++ s.lenLo

/-- PLEN div 64, the number of blocks SCHED may select (R29, R151). -/
def State.blocks (s : State) : Nat := s.plen.toNat / 64

/-- Four consecutive byte elements read as a big-endian word (R15, R66, R67). -/
def State.readQuad (f : Nat → Elem Byte) (o : Nat) (s : State) : Word × State :=
  let r0 := s.readElem (f o)
  let r1 := r0.2.readElem (f (o + 1))
  let r2 := r1.2.readElem (f (o + 2))
  let r3 := r2.2.readElem (f (o + 3))
  (ofBytes r0.1 r1.1 r2.1 r3.1, r3.2)

/-- MemRead(o, 1) (R15). -/
def State.memRead1 (o : Nat) (s : State) : Byte × State := s.readElem (s.mem.find o)

/-- MemRead(o, 4) (R15). -/
def State.memRead4 (o : Nat) (s : State) : Word × State := s.readQuad s.mem.find o

/-- W[t] as an element (R34). -/
def State.wElem (s : State) (t : Nat) : Elem Word := s.w[t]?.getD .unwritten

/-- A read of W[t] (R34, R281). -/
def State.readW (t : Nat) (s : State) : Word × State := s.readElem (s.wElem t)

/-- W[t] <- v (R34). -/
def State.writeW (t : Nat) (v : Word) (s : State) : State := s.setWAll (s.w.setIfInBounds t (.written v))

/-- HEX[j] as an element (R35). -/
def State.hexElem (s : State) (j : Nat) : Elem Byte := s.hex[j]?.getD .unwritten

end Sys2Proof.Machine
end

