-- ==== Sys2Proof/Machine/Bus.lean ====
section
/-! DEFINITION. The HOST agent's accesses (20_memory R60 to R79): the address map, legality, reads and writes, bus
errors, and access while the block is busy. -/

namespace Sys2Proof.Machine

/-- The registers of region REG (R21). -/
inductive Reg where
  | id
  | ctrl
  | status
  | cmd
  | errcmd
  | lenLo
  | lenHi
  | plen
  | rcnt
  | bufblk
  deriving DecidableEq, Repr

/-- What a legal access reaches: a control register, H_i, the i-th of A..E, W[t], or bytes from HEX[j] or M[o]. -/
inductive Target where
  | reg (r : Reg)
  | h (i : Fin 5)
  | wk (i : Fin 5)
  | w (t : Fin 80)
  | hex (j : Nat)
  | msg (o : Nat)
  deriving DecidableEq, Repr

/-- The offset where M begins (R36, R62). -/
def msgBase : Nat := 0x40000000

/-- The offset of a host byte address; none outside the block's window (R61). -/
def offsetOf (c : Config) (addr : Nat) : Option Nat :=
  if c.base ≤ addr ∧ addr < c.base + 2 ^ 31 then some (addr - c.base) else none

/-- The register at an offset of region REG (R21). -/
def regAt (a : Nat) : Option Reg :=
  match a with
  | 0x000 => some .id
  | 0x004 => some .ctrl
  | 0x008 => some .status
  | 0x00C => some .cmd
  | 0x010 => some .errcmd
  | 0x014 => some .lenLo
  | 0x018 => some .lenHi
  | 0x01C => some .plen
  | 0x020 => some .rcnt
  | 0x024 => some .bufblk
  | _ => none

/-- The regions both sizes may reach: HEX and MSG (R62, R64). -/
def byteRegion (c : Config) (a : Nat) : Option Target :=
  if 0x080 ≤ a ∧ a < 0x0A8 then some (.hex (a - 0x080))
  else if msgBase ≤ a ∧ a < msgBase + c.bufBytes then some (.msg (a - msgBase))
  else none

/-- The regions only word accesses may reach: REG, HREG, WREG and SCHED (R62, R64). -/
def wordRegion (a : Nat) : Option Target :=
  if a < 0x028 then (regAt a).map .reg
  else if 0x040 ≤ a ∧ a < 0x054 then some (.h (Fin.ofNat 5 ((a - 0x040) / 4)))
  else if 0x060 ≤ a ∧ a < 0x074 then some (.wk (Fin.ofNat 5 ((a - 0x060) / 4)))
  else if 0x100 ≤ a ∧ a < 0x240 then some (.w (Fin.ofNat 80 ((a - 0x100) / 4)))
  else none

/-- The address map with the legality of size and alignment (R62, R64); none is a bus error. -/
def target (c : Config) (a : Nat) (sz : Size) : Option Target :=
  match sz with
  | .byte => byteRegion c a
  | .word =>
    if a % 4 ≠ 0 then none
    else match wordRegion a with
      | some t => some t
      | none => byteRegion c a

/-- What a control register reads as (R22 to R31). -/
def State.regValue (s : State) : Reg → Word
  | .id => idValue
  | .ctrl => s.ctrl.word
  | .status => s.status.word
  | .cmd => 0
  | .errcmd => s.errcmd
  | .lenLo => s.lenLo
  | .lenHi => s.lenHi
  | .plen => s.plen
  | .rcnt => s.rcnt.setWidth 32
  | .bufblk => BitVec.ofNat 32 s.cfg.bufBlocks

/-- The i-th of A, B, C, D, E (R33). -/
def Working.get (x : Working) : Fin 5 → Word
  | 0 => x.a
  | 1 => x.b
  | 2 => x.c
  | 3 => x.d
  | 4 => x.e

/-- The i-th of A, B, C, D, E replaced (R33). -/
def Working.put (x : Working) (i : Fin 5) (v : Word) : Working :=
  match i with
  | 0 => { x with a := v }
  | 1 => { x with b := v }
  | 2 => { x with c := v }
  | 3 => { x with d := v }
  | 4 => { x with e := v }

/-- Bytes of HEX or M as a read of either size returns them (R66, R67): a byte zero-extended, or four as a word. -/
def State.readBytes (f : Nat → Elem Byte) (o : Nat) (sz : Size) (s : State) : Word × State :=
  match sz with
  | .byte =>
    let r := s.readElem (f o)
    (r.1.setWidth 32, r.2)
  | .word => s.readQuad f o

/-- A legal read while the block is idle (R65 to R67). -/
def State.readTarget (t : Target) (sz : Size) (s : State) : Word × State :=
  match t with
  | .reg r => (s.regValue r, s)
  | .h i => (s.h[i], s)
  | .wk i => (s.wk.get i, s)
  | .w t => s.readW t
  | .hex j => s.readBytes s.hexElem j sz
  | .msg o => s.readBytes s.mem.find o sz

/-- The registers that read their values while the block is busy (R75). -/
def Target.exactWhileBusy : Target → Bool
  | .reg .id | .reg .ctrl | .reg .status | .reg .cmd | .reg .bufblk => true
  | .reg .errcmd | .reg .lenLo | .reg .lenHi | .reg .plen | .reg .rcnt => false
  | .h _ | .wk _ | .w _ | .hex _ | .msg _ => false

/-- Read(a, s) -> (rdata, resp) (R60): a bus error (R70), a free 32-bit value (R75; log 10), or the value.
Whether the block counts as busy is STATUS.BUSY alone, also after CORE's step and before the host has read BUSY = 0
(R76 and R290 can be read otherwise: DESIGN CHOICE, log 28). -/
def State.busRead (a : Nat) (sz : Size) (s : State) : (Word × Resp) × State :=
  match target s.cfg a sz with
  | none => ((0, .error), s.busError)
  | some t =>
    if s.status.busy = true ∧ t.exactWhileBusy = false then
      let r := s.readElem (.unwritten : Elem Word)
      ((r.1, .okay), r.2)
    else
      let r := s.readTarget t sz
      ((r.1, .okay), r.2)

/-- The targets a write may reach while the block is busy: CTRL and STATUS (R74). -/
def Target.writableWhileBusy : Target → Bool
  | .reg .ctrl | .reg .status => true
  | .reg .id | .reg .cmd | .reg .errcmd | .reg .lenLo | .reg .lenHi | .reg .plen | .reg .rcnt | .reg .bufblk => false
  | .h _ | .wk _ | .w _ | .hex _ | .msg _ => false

/-- The bytes a write of v stores (R60, R68). -/
def writtenBytes (sz : Size) (v : Word) : List Byte :=
  match sz with
  | .byte => [v.extractLsb' 0 8]
  | .word => wordBytes v

/-- The effect of a legal write (R23, R25, R26, R65, R68, R104); none for a read-only target, which is a bus error. -/
def State.writeTarget (t : Target) (sz : Size) (v : Word) (s : State) : Option State :=
  match t with
  | .reg .ctrl => some (s.setCtrl (Ctrl.ofWord v))
  | .reg .status => some (s.setStatus (s.status.clear v))
  | .reg .cmd => some (s.accept v)
  | .reg .lenLo => some (s.setLenLo v)
  | .reg .lenHi => some (s.setLenHi v)
  | .reg .id | .reg .errcmd | .reg .plen | .reg .rcnt | .reg .bufblk => none
  | .h i => some (s.setH (s.h.set i v))
  | .wk i => some (s.setWk (s.wk.put i v))
  | .w t => some (s.writeW t v)
  | .hex _ => none
  | .msg o => some (s.setMem (s.mem.store o (writtenBytes sz v)))

/-- Write(a, s, wdata) -> resp (R60): a bus error (R70, R74), or the effect. Busy is STATUS.BUSY alone (DESIGN CHOICE,
log 28). -/
def State.busWrite (a : Nat) (sz : Size) (v : Word) (s : State) : Resp × State :=
  match target s.cfg a sz with
  | none => (.error, s.busError)
  | some t =>
    if s.status.busy = true ∧ t.writableWhileBusy = false then (.error, s.busError)
    else match s.writeTarget t sz v with
      | none => (.error, s.busError)
      | some s' => (.okay, s')

/-- HOST's step that reads at a host byte address; an address outside the window does not reach the block (R61). -/
def State.hostRead (addr : Nat) (sz : Size) (s : State) : State :=
  match offsetOf s.cfg addr with
  | none => s
  | some a =>
    let r := s.busRead a sz
    r.2.refreshIrq.setReply (some (.read r.1.1 r.1.2))

/-- HOST's step that writes at a host byte address; an address outside the window does not reach the block (R61). -/
def State.hostWrite (addr : Nat) (sz : Size) (v : Word) (s : State) : State :=
  match offsetOf s.cfg addr with
  | none => s
  | some a =>
    let r := s.busWrite a sz v
    r.2.refreshIrq.setReply (some (.write r.1))

end Sys2Proof.Machine
end

