-- ==== Sys2Proof/WellFormed.lean ====
section
/-! DEFINITION. Which commands can be written down in the one 32-bit format. -/

namespace Sys2Proof

/-- The block index of SCHED is in 0 .. 16777215 (R101, R108); the other commands have no operand to check. -/
def Instr.wf : Instr → Bool
  | .sched b => decide (b < 2 ^ 24)
  | .nop | .init | .pad | .expand | .loadw | .round | .feedfwd | .compress | .encode | .hash => true

end Sys2Proof
end

