-- ==== Sys2Proof/Decode.lean ====
section
/-! DEFINITION. The command format CMDW (30_encoding R100 to R106): decoding, total on every 32-bit word and rejecting
by name, and the encoder (R108). -/

namespace Sys2Proof

/-- cmd[7:0] (R100). -/
def opcodeField (cmd : Word) : BitVec 8 := cmd.extractLsb' 0 8

/-- cmd[31:8] (R100). -/
def imm24Field (cmd : Word) : BitVec 24 := cmd.extractLsb' 8 24

/-- The row an opcode selects (R102); the opcodes 0x0B to 0xFF select none (R103). -/
def opcodeRow (op : BitVec 8) (imm : BitVec 24) : Option Instr :=
  match op.toNat with
  | 0x00 => some .nop
  | 0x01 => some .init
  | 0x02 => some .pad
  | 0x03 => some (.sched imm.toNat)
  | 0x04 => some .expand
  | 0x05 => some .loadw
  | 0x06 => some .round
  | 0x07 => some .feedfwd
  | 0x08 => some .compress
  | 0x09 => some .encode
  | 0x0A => some .hash
  | _ => none

/-- Whether a row takes any imm24 (SCHED) or only 0 (R101, R102). -/
def Instr.takesOperand : Instr → Bool
  | .sched _ => true
  | .nop | .init | .pad | .expand | .loadw | .round | .feedfwd | .compress | .encode | .hash => false

/-- Decode (R106): a reserved opcode first, then a nonzero imm24 where it must be 0. -/
def decode (cmd : Word) : Except CmdError Instr :=
  match opcodeRow (opcodeField cmd) (imm24Field cmd) with
  | none => .error .illegalOpcode
  | some i => if i.takesOperand = false ∧ imm24Field cmd ≠ 0 then .error .badOperand else .ok i

/-- The opcode of each command, from the map of R102. -/
def Instr.opcode : Instr → BitVec 8
  | .nop => 0x00
  | .init => 0x01
  | .pad => 0x02
  | .sched _ => 0x03
  | .expand => 0x04
  | .loadw => 0x05
  | .round => 0x06
  | .feedfwd => 0x07
  | .compress => 0x08
  | .encode => 0x09
  | .hash => 0x0A

/-- The imm24 field of each command (R108): b for SCHED, otherwise 0. -/
def Instr.imm24 : Instr → BitVec 24
  | .sched b => BitVec.ofNat 24 b
  | .nop | .init | .pad | .expand | .loadw | .round | .feedfwd | .compress | .encode | .hash => 0

/-- The command word: `imm24 || opcode` (R100, R108). -/
def encode (i : Instr) : Word := i.imm24 ++ i.opcode

/-- The word of an opcode-table row of `nbits` bits whose bits are `w`; the bits above are 0.
A command is one 32-bit word, so no byte order comes into it (R100). -/
def tableWord (nbits w : Nat) : Word := BitVec.ofNat 32 (w % 2 ^ nbits)

/-- The command the decoder reads from an opcode-table word; none where it raises an error. -/
def decodeTableWord (nbits w : Nat) : Option Instr :=
  match decode (tableWord nbits w) with
  | .ok i => some i
  | .error _ => none

end Sys2Proof
end

