-- ==== Sys2Proof/Machine/Compressor.lean ====
section
/-! DEFINITION. The compression engine: INIT, LOADW, ROUND, FEEDFWD and COMPRESS (42_compressor R170 to R182). -/

namespace Sys2Proof.Machine

/-- The stage of round t is t div 20, for t in 0 .. 79 (R17, R173). -/
def stageOf (t : Nat) : Fin 4 := Fin.ofNat 4 (t / 20)

/-- The stage functions (R172). -/
def stageFn (s : Fin 4) (x y z : Word) : Word :=
  match s with
  | 0 => (x &&& y) ||| (~~~x &&& z)
  | 1 => x ^^^ y ^^^ z
  | 2 => (x &&& y) ||| (x &&& z) ||| (y &&& z)
  | 3 => x ^^^ y ^^^ z

/-- One round t with the schedule word v (R173). -/
def roundStep (t : Nat) (v : Word) (x : Working) : Working :=
  let s := stageOf t
  let T := rotl x.a 5 + stageFn s x.b x.c x.d + x.e + roundConst s + v
  { a := T, b := x.a, c := rotl x.b 30, d := x.c, e := x.d }

/-- H, A..E <- IV and RCNT <- 0 (R174). -/
def initEffect (s : State) : State := ((s.setH iv).setWk (Working.ofVec iv)).setRcnt 0

/-- A..E <- H and RCNT <- 0 (R175). -/
def loadwEffect (s : State) : State := (s.setWk (Working.ofVec s.h)).setRcnt 0

/-- The round t = RCNT with W[t], then RCNT <- t + 1 (R176). -/
def roundEffect (s : State) : State :=
  let r := s.readW s.rcnt.toNat
  (r.2.setWk (roundStep s.rcnt.toNat r.1 s.wk)).setRcnt (s.rcnt + 1)

/-- ROUND's check, then the round (R176). -/
def roundBody (s : State) : Except CmdError State :=
  if 80 ≤ s.rcnt.toNat then .error .roundOverrun else .ok (roundEffect s)

/-- H + (A..E), word by word modulo 2^32 (R177). -/
def addDigest (h : Vector Word 5) (x : Working) : Vector Word 5 :=
  #v[h[0] + x.a, h[1] + x.b, h[2] + x.c, h[3] + x.d, h[4] + x.e]

/-- H <- H + (A..E), A..E <- the new H, RCNT <- 0 (R177). -/
def feedfwdEffect (s : State) : State :=
  let h := addDigest s.h s.wk
  ((s.setH h).setWk (Working.ofVec h)).setRcnt 0

/-- FEEDFWD's check, then the feed-forward (R177). -/
def feedfwdBody (s : State) : Except CmdError State :=
  if s.rcnt.toNat ≠ 80 then .error .roundIncomplete else .ok (feedfwdEffect s)

/-- LOADW, 80 rounds, FEEDFWD; the inner checks cannot fail (R178). -/
def compressEffect (s : State) : State := feedfwdEffect (roundEffect^[80] (loadwEffect s))

/-- INIT (R174). -/
def execInit (s : State) : Host.Outcome State Fault Refusal :=
  perform (Sys2Proof.encode .init) (.ok (initEffect s)) s

/-- LOADW (R175). -/
def execLoadw (s : State) : Host.Outcome State Fault Refusal :=
  perform (Sys2Proof.encode .loadw) (.ok (loadwEffect s)) s

/-- ROUND (R176). -/
def execRound (s : State) : Host.Outcome State Fault Refusal := perform (Sys2Proof.encode .round) (roundBody s) s

/-- FEEDFWD (R177). -/
def execFeedfwd (s : State) : Host.Outcome State Fault Refusal := perform (Sys2Proof.encode .feedfwd) (feedfwdBody s) s

/-- COMPRESS (R178). -/
def execCompress (s : State) : Host.Outcome State Fault Refusal :=
  perform (Sys2Proof.encode .compress) (.ok (compressEffect s)) s

end Sys2Proof.Machine
end

