-- ==== Sys2Proof/Machine/Encoder.lean ====
section
/-! DEFINITION. The hex encoder: ENCODE (43_encoder R210 to R213). -/

namespace Sys2Proof.Machine

/-- The character of a nibble: '0'..'9' are 0x30..0x39, 'a'..'f' are 0x61..0x66 (R210; the codes: log 14). -/
def hexChar (v : BitVec 4) : Byte :=
  if v.toNat ≤ 9 then 0x30 + v.setWidth 8 else 0x61 + v.setWidth 8 - 10

/-- Nibble j of the digest: H[j div 8], most significant nibble first (R210). -/
def nibble (h : Vector Word 5) (j : Fin 40) : BitVec 4 :=
  (h[j.val / 8]'(by omega)).extractLsb' (28 - 4 * (j.val % 8)) 4

/-- HEX[j] of a digest (R210). -/
def hexText (h : Vector Word 5) (j : Fin 40) : Byte := hexChar (nibble h j)

/-- HEX[0..39] <- the hex text of H (R211). -/
def encodeEffect (s : State) : State := s.setHex (Vector.ofFn fun j => .written (hexText s.h j))

/-- ENCODE (R211). -/
def execEncode (s : State) : Host.Outcome State Fault Refusal :=
  perform (Sys2Proof.encode .encode) (.ok (encodeEffect s)) s

end Sys2Proof.Machine
end

