-- ==== Sys2Proof/Machine/Padder.lean ====
section
/-! DEFINITION. The message padder: PAD (40_padder R130 to R137). -/

namespace Sys2Proof.Machine

/-- P(L) = 64 * ((L + 8) div 64 + 1), the padded length (R130). -/
def padLength (L : Nat) : Nat := 64 * ((L + 8) / 64 + 1)

/-- A 64-bit value as eight bytes, most significant first (R132, R135). -/
def bigEndian8 (v : BitVec 64) : List Byte := (List.range 8).map fun j => v.extractLsb' (56 - 8 * j) 8

/-- The writes of PAD (R131): 0x80 at M[L], zero bytes up to M[P-9], the bit length in M[P-8 .. P-1], then PLEN. -/
def padEffect (s : State) : State :=
  let L := s.len.toNat
  let P := padLength L
  let m1 := s.mem.write L 0x80
  let m2 := m1.store (L + 1) (List.replicate (P - 9 - L) 0x00)
  let m3 := m2.store (P - 8) (bigEndian8 (s.len * 8))
  (s.setMem m3).setPlen (BitVec.ofNat 32 P)

/-- PAD's checks in their order, then its writes (R131). -/
def padBody (s : State) : Except CmdError State :=
  if 2 ^ 61 ≤ s.len.toNat then .error .lenOverflow
  else if s.cfg.bufBytes < padLength s.len.toNat then .error .capacity
  else .ok (padEffect s)

/-- PAD (R131). -/
def execPad (s : State) : Host.Outcome State Fault Refusal := perform (Sys2Proof.encode .pad) (padBody s) s

end Sys2Proof.Machine
end

