-- ==== Sys2Proof/Machine/Scheduler.lean ====
section
/-! DEFINITION. The word scheduler: SCHED and EXPAND (41_scheduler R150 to R156). -/

namespace Sys2Proof.Machine

/-- W[t] <- BW(b, t) = MemRead(64 b + 4 t, 4) (R150). -/
def loadBlockWord (b t : Nat) (s : State) : State :=
  let r := s.memRead4 (64 * b + 4 * t)
  r.2.writeW t r.1

/-- W[t] <- BW(b, t) for t = 0 .. 15 (R153). -/
def loadBlock (b : Nat) (s : State) : State := (List.range 16).foldl (fun s t => loadBlockWord b t s) s

/-- W[t] <- rotl(W[t-3] ^ W[t-8] ^ W[t-14] ^ W[t-16], 1), each the value already held (R152). -/
def expandWord (t : Nat) (s : State) : State :=
  let r3 := s.readW (t - 3)
  let r8 := r3.2.readW (t - 8)
  let r14 := r8.2.readW (t - 14)
  let r16 := r14.2.readW (t - 16)
  r16.2.writeW t (rotl (r3.1 ^^^ r8.1 ^^^ r14.1 ^^^ r16.1) 1)

/-- The expansion for t = 16 .. 79 in increasing order (R152). -/
def expandEffect (s : State) : State := (List.range' 16 64).foldl (fun s t => expandWord t s) s

/-- All of W from block b: the 16 block words, then the expansion (R153). -/
def schedEffect (b : Nat) (s : State) : State := expandEffect (loadBlock b s)

/-- SCHED's range check, then its writes (R151, R153). -/
def schedBody (b : Nat) (s : State) : Except CmdError State :=
  if s.blocks ≤ b then .error .blockRange else .ok (schedEffect b s)

/-- SCHED b (R153). -/
def execSched (b : Nat) (s : State) : Host.Outcome State Fault Refusal :=
  perform (Sys2Proof.encode (.sched b)) (schedBody b s) s

/-- EXPAND (R154). -/
def execExpand (s : State) : Host.Outcome State Fault Refusal :=
  perform (Sys2Proof.encode .expand) (.ok (expandEffect s)) s

end Sys2Proof.Machine
end

