-- ==== Sys2Proof/Machine/Control.lean ====
section
/-! DEFINITION. The top level: NOP and HASH (44_control R220 to R225). -/

namespace Sys2Proof.Machine

/-- NOP (R220): it only completes. -/
def execNop (s : State) : Host.Outcome State Fault Refusal := perform (Sys2Proof.encode .nop) (.ok s) s

/-- SCHED b, then COMPRESS (R221). -/
def hashBlock (s : State) (b : Nat) : State := compressEffect (schedEffect b s)

/-- The blocks 0 .. n-1 in order, chaining H (R221, R223). -/
def hashBlocks (n : Nat) (s : State) : State := (List.range n).foldl hashBlock s

/-- PAD with its errors, INIT, every block, ENCODE (R221). -/
def hashBody (s : State) : Except CmdError State :=
  match padBody s with
  | .error e => .error e
  | .ok t => .ok (encodeEffect (hashBlocks t.blocks (initEffect t)))

/-- HASH (R221). -/
def execHash (s : State) : Host.Outcome State Fault Refusal := perform (Sys2Proof.encode .hash) (hashBody s) s

end Sys2Proof.Machine
end

