-- ==== Sys2Proof/Machine/Dispatch.lean ====
section
/-! DEFINITION. One meaning per command (30_encoding R102). -/

namespace Sys2Proof.Machine

def exec (i : Instr) (s : State) : Host.Outcome State Fault Refusal :=
  match i with
  | .nop => Sys2Proof.Machine.execNop s
  | .init => Sys2Proof.Machine.execInit s
  | .pad => Sys2Proof.Machine.execPad s
  | .sched b => Sys2Proof.Machine.execSched b s
  | .expand => Sys2Proof.Machine.execExpand s
  | .loadw => Sys2Proof.Machine.execLoadw s
  | .round => Sys2Proof.Machine.execRound s
  | .feedfwd => Sys2Proof.Machine.execFeedfwd s
  | .compress => Sys2Proof.Machine.execCompress s
  | .encode => Sys2Proof.Machine.execEncode s
  | .hash => Sys2Proof.Machine.execHash s

end Sys2Proof.Machine
end

