-- ==== Sys2Proof/Machine/Step.lean ====
section
/-! DEFINITION. One step of the whole: an access of HOST, a reset, or CORE's step on the command in PENDING. -/

namespace Sys2Proof.Machine

/-- A turn of CORE (R105, R106): with a command in PENDING it decodes it and performs it or raises the decode error;
with none it has no step, and the turn changes nothing (R105, R265; log 7). -/
def coreTurn (s : State) : Host.Outcome State Fault Refusal :=
  match s.fetch with
  | none => .next s
  | some cmd =>
    match decode cmd with
    | .error e => raiseError cmd e s
    | .ok i => exec i s

/-- One step of the interleaving (R76): the agenda's first event. With nothing on the agenda CORE has the turn, so
an accepted command completes (weak fairness, R300; log 6). -/
def step (s : State) : Host.Outcome State Fault Refusal :=
  match s.agenda with
  | [] => coreTurn s
  | .core :: rest => coreTurn (s.setAgenda rest)
  | .read addr sz :: rest => .next ((s.setAgenda rest).hostRead addr sz)
  | .write addr sz v :: rest => .next ((s.setAgenda rest).hostWrite addr sz v)
  | .reset :: rest => .next (s.setAgenda rest).applyReset

/-- The command of an opcode-table word put where CORE takes it up: it is accepted (R104), and CORE has the next
turn (log 9). -/
def State.withFetchWord (s : State) (nbits w : Nat) : State :=
  (s.accept (tableWord nbits w)).refreshIrq.setAgenda (.core :: s.agenda)

end Sys2Proof.Machine
end

