-- ==== Sys2Proof/Reference.lean ====
section
/-! DEFINITION. SHA-1 as the spec's source contracts give it (`pad`, `make_schedule`, `compress`, `to_hex`, `hash`), a
pure function of a byte list, written apart from the machine so that claims can compare the two. -/

namespace Sys2Proof.Reference

/-- `pad`: the input, 0x80, zero bytes until the length is 56 modulo 64, the bit length in 8 bytes, most significant
first (R130, R132). -/
def pad (msg : List Byte) : List Byte :=
  msg ++ [0x80] ++ List.replicate ((119 - msg.length % 64) % 64) 0x00
    ++ (List.range 8).map fun j => BitVec.ofNat 8 (msg.length * 8 / 256 ^ (7 - j))

/-- The first 16 schedule words of block b: 4 consecutive bytes each, most significant first (R150). -/
def blockWords (p : List Byte) (b : Nat) : List Word :=
  (List.range 16).map fun t =>
    let byte (j : Nat) : Nat := (p.getD (64 * b + 4 * t + j) 0).toNat
    BitVec.ofNat 32 (byte 0 * 2 ^ 24 + byte 1 * 2 ^ 16 + byte 2 * 2 ^ 8 + byte 3)

/-- One more schedule word: rotate_left(w[i-16] ^ w[i-14] ^ w[i-8] ^ w[i-3], 1) (R152). -/
def extend (ws : List Word) : List Word :=
  let back (k : Nat) : Word := ws.getD (ws.length - k) 0
  ws ++ [(back 16 ^^^ back 14 ^^^ back 8 ^^^ back 3).rotateLeft 1]

/-- `make_schedule`: the 80 words of block b (R152, R153). -/
def schedule (p : List Byte) (b : Nat) : List Word := extend^[64] (blockWords p b)

/-- The round function and constant of round r, by its 20-round band (R171, R172). -/
def band (r : Nat) (b c d : Word) : Word × Word :=
  if r < 20 then ((b &&& c) ||| (~~~b &&& d), 0x5A827999)
  else if r < 40 then (b ^^^ c ^^^ d, 0x6ED9EBA1)
  else if r < 60 then ((b &&& c) ||| (b &&& d) ||| (c &&& d), 0x8F1BBCDC)
  else (b ^^^ c ^^^ d, 0xCA62C1D6)

/-- Round r on the five working words (R173). -/
def round (ws : List Word) (x : Word × Word × Word × Word × Word) (r : Nat) : Word × Word × Word × Word × Word :=
  let (a, b, c, d, e) := x
  let (f, k) := band r b c d
  (e + ws.getD r 0 + a.rotateLeft 5 + f + k, a, b.rotateLeft 30, c, d)

/-- `compress`: 80 rounds, then the state before them added back (R178, R179). -/
def compress (ws : List Word) (h : Word × Word × Word × Word × Word) : Word × Word × Word × Word × Word :=
  let (a, b, c, d, e) := (List.range 80).foldl (round ws) h
  let (h0, h1, h2, h3, h4) := h
  (h0 + a, h1 + b, h2 + c, h3 + d, h4 + e)

/-- The digest: every block of the padded message in order, from IV (R170, R221, R223). -/
def digest (msg : List Byte) : Word × Word × Word × Word × Word :=
  let p := pad msg
  (List.range (p.length / 64)).foldl (fun h b => compress (schedule p b) h)
    (0x67452301, 0xEFCDAB89, 0x98BADCFE, 0x10325476, 0xC3D2E1F0)

/-- The 16 hex characters in order (R210). -/
def hexAlphabet : List Byte :=
  [0x30, 0x31, 0x32, 0x33, 0x34, 0x35, 0x36, 0x37, 0x38, 0x39, 0x61, 0x62, 0x63, 0x64, 0x65, 0x66]

/-- `to_hex` of one word: 8 characters, most significant nibble first (R210). -/
def hexWord (v : Word) : List Byte := (List.range 8).map fun n => hexAlphabet.getD (v.toNat / 16 ^ (7 - n) % 16) 0

/-- `to_hex`: 40 characters, the words in order (R210, R212). -/
def toHex (h : Word × Word × Word × Word × Word) : List Byte :=
  let (h0, h1, h2, h3, h4) := h
  hexWord h0 ++ hexWord h1 ++ hexWord h2 ++ hexWord h3 ++ hexWord h4

end Sys2Proof.Reference
end

