-- ==== Sys2Proof/Safety.lean ====
section
/-! DEFINITION. The terms claims use: the invariant, the error a command word must end with, and which accesses the
spec lets through, each written from the spec's prose and tables and apart from the machine. -/

namespace Sys2Proof.Machine

/-- What holds of the state after reset and after every step. -/
structure State.Inv (s : State) : Prop where
  /-- The parameters are in their ranges (R9, R11). -/
  configLegal : s.cfg.wf
  /-- The bytes of M are listed in rising order. -/
  memCanonical : s.mem.wf
  /-- M has BUF_BYTES bytes (R36). -/
  memInRange : ∀ x ∈ s.mem, x.1 < s.cfg.bufBytes
  /-- PENDING is not none exactly when BUSY = 1 (R38). -/
  busyIffPending : s.status.busy = s.pending.isSome
  /-- Acceptance clears DONE, and only completion sets it (R24). -/
  busyNotDone : s.status.busy = true → s.status.done = false
  /-- irq = CTRL.IE AND STATUS.DONE (R39). -/
  irqLevel : s.irq = (s.ctrl.ie && s.status.done)
  /-- ERRCODE is one of 0x00 to 0x07 (R241). -/
  errcodeLegal : s.status.errcode.toNat ≤ 7
  /-- PLEN is a multiple of 64 (R29). -/
  plenBlocks : s.plen.toNat % 64 = 0
  /-- PLEN is no greater than BUF_BYTES (R29). -/
  plenFits : s.plen.toNat ≤ s.cfg.bufBytes
  /-- RCNT is in 0 .. 80 (R30, R182). -/
  rcntRange : s.rcnt.toNat ≤ 80

/-- The error the command word cmd must end with in s, none for success: the first cause of R240 that holds, in the
order of R244. -/
def expectedError (cmd : Word) (s : State) : Option CmdError :=
  let op := cmd.toNat % 2 ^ 8
  let imm := cmd.toNat / 2 ^ 8
  let len := s.lenHi.toNat * 2 ^ 32 + s.lenLo.toNat
  if 0x0A < op then some .illegalOpcode
  else if op ≠ 0x03 ∧ imm ≠ 0 then some .badOperand
  else if (op = 0x02 ∨ op = 0x0A) ∧ 2 ^ 61 ≤ len then some .lenOverflow
  else if (op = 0x02 ∨ op = 0x0A) ∧ 64 * s.cfg.bufBlocks < 64 * ((len + 8) / 64 + 1) then some .capacity
  else if op = 0x03 ∧ s.plen.toNat / 64 ≤ imm then some .blockRange
  else if op = 0x06 ∧ 80 ≤ s.rcnt.toNat then some .roundOverrun
  else if op = 0x07 ∧ s.rcnt.toNat ≠ 80 then some .roundIncomplete
  else none

/-- Offset a lies in HEX or MSG, which both sizes reach (R62, R64). -/
def inByteRegion (c : Config) (a : Nat) : Prop :=
  (0x080 ≤ a ∧ a ≤ 0x0A7) ∨ (0x40000000 ≤ a ∧ a ≤ 0x40000000 + 64 * c.bufBlocks - 1)

/-- Offset a lies in REG, HREG, WREG or SCHED, which only word accesses reach (R62). -/
def inWordRegion (a : Nat) : Prop :=
  a ≤ 0x027 ∨ (0x040 ≤ a ∧ a ≤ 0x053) ∨ (0x060 ≤ a ∧ a ≤ 0x073) ∨ (0x100 ≤ a ∧ a ≤ 0x23F)

/-- The block does not refuse a read of size sz at offset a (R62, R64, R70). -/
def readAllowed (c : Config) (a : Nat) (sz : Size) : Prop :=
  (sz = .word → a % 4 = 0 ∧ (inWordRegion a ∨ inByteRegion c a)) ∧ (sz = .byte → inByteRegion c a)

/-- Offset a is read-only: ID, ERRCMD, PLEN, RCNT, BUFBLK or HEX (R21, R65, R66). -/
def readOnlyOffset (a : Nat) : Prop :=
  a = 0x000 ∨ a = 0x010 ∨ a = 0x01C ∨ a = 0x020 ∨ a = 0x024 ∨ (0x080 ≤ a ∧ a ≤ 0x0A7)

/-- The block does not refuse a write of size sz at offset a (R70, R74). -/
def writeAllowed (s : State) (a : Nat) (sz : Size) : Prop :=
  readAllowed s.cfg a sz ∧ ¬ readOnlyOffset a ∧ (s.status.busy = true → a = 0x004 ∨ a = 0x008)

/-- The 80 rounds on the working registers with the schedule words v 0 .. v 79 (Rounds80 of R179). -/
def rounds80 (v : Nat → Word) (x : Working) : Working := (List.range 80).foldl (fun x t => roundStep t (v t) x) x

/-- The STATUS a successful completion leaves (R242). -/
def Status.succeeded (t : Status) : Status := { t with busy := false, done := true, errcode := 0x00 }

/-- What no command changes, whatever it does: the parameters, CTRL, LEN, BUSERR, and the model's agenda and reply
(R28, R242, R107). -/
def State.SameHostSide (s t : State) : Prop :=
  t.cfg = s.cfg ∧ t.ctrl = s.ctrl ∧ t.lenLo = s.lenLo ∧ t.lenHi = s.lenHi ∧ t.status.buserr = s.status.buserr
    ∧ t.agenda = s.agenda ∧ t.reply = s.reply

/-- A command that runs to success completes so (R242). -/
def State.CompletedOk (s t : State) : Prop :=
  t.pending = none ∧ t.status = s.status.succeeded ∧ t.errcmd = s.errcmd ∧ t.irq = s.ctrl.ie

/-- CORE has the next turn: its turn stands first on the agenda, or nothing stands there (log 6). -/
def State.CoreHasTurn (s : State) : Prop := s.agenda = [] ∨ s.agenda.head? = some .core

/-- s with the turn that is being taken removed from the agenda. -/
def State.turnTaken (s : State) : State := { s with agenda := s.agenda.tail }

/-- The next step is CORE performing the command i (R105). -/
def State.Performs (s : State) (i : Instr) : Prop :=
  s.CoreHasTurn ∧ ∃ cmd, s.pending = some cmd ∧ decode cmd = .ok i

/-- Commands issued one after another, each accepted (R104) and performed before the next (R285). -/
def issueAll : List Instr → State → Host.Outcome State Fault Refusal
  | [], s => .next s
  | i :: is, s =>
    match exec i (s.accept (encode i)).refreshIrq with
    | .next t => issueAll is t
    | .fault r => .fault r
    | .refused r => .refused r

/-- The message M[0 .. LEN-1] is written, and is msg (R36). -/
def State.HoldsMessage (s : State) (msg : List Byte) : Prop :=
  s.len.toNat = msg.length ∧ ∀ o (h : o < msg.length), s.mem.find o = .written msg[o]

/-- PAD's own checks pass (R131). -/
def State.PadFits (s : State) : Prop :=
  s.len.toNat < 2 ^ 61 ∧ 64 * ((s.len.toNat + 8) / 64 + 1) ≤ 64 * s.cfg.bufBlocks

end Sys2Proof.Machine
end

