-- ==== Sys2Proof/Certificates/Slice0/Obligations.lean ====
section
/-! DEFINITION. What is claimed of the model, one definition per statement. -/

open Sys2Proof Sys2Proof.Machine

/-! ## Commands as words -/

/-- R100, R102, R108: encoding and decoding agree in both directions, with every operand value the format admits. -/
def Obligations.DecodeEncodeAgree : Prop :=
  (∀ i : Instr, i.wf = true → decode (encode i) = .ok i) ∧
  (∀ (cmd : Word) (i : Instr), decode cmd = .ok i → i.wf = true ∧ encode i = cmd)

/-- R101, R106: the checks of decode in their order, on every word, and the row each valid word selects. -/
def Obligations.DecodeChecksInOrder : Prop :=
  ∀ cmd : Word,
    (0x0A < cmd.toNat % 256 → decode cmd = .error .illegalOpcode) ∧
    (cmd.toNat % 256 ≤ 0x0A → cmd.toNat % 256 ≠ 0x03 → cmd.toNat / 256 ≠ 0 → decode cmd = .error .badOperand) ∧
    (cmd.toNat % 256 = 0x03 → decode cmd = .ok (.sched (cmd.toNat / 256))) ∧
    (cmd.toNat % 256 ≤ 0x0A → cmd.toNat % 256 ≠ 0x03 → cmd.toNat / 256 = 0 →
      ∃ i, decode cmd = .ok i ∧
        [Instr.nop, .init, .pad, .sched 0, .expand, .loadw, .round, .feedfwd, .compress, .encode, .hash][cmd.toNat % 256]?
          = some i)

/-- The words R102 and R108 write out decode to the commands they stand for. -/
def Obligations.SpecWordsDecode : Prop :=
  decode 0b00000000000000000000000000000000#32 = .ok .nop ∧
  decode 0b00000000000000000000000000000010#32 = .ok .pad ∧
  decode 0b00000000000000000000000100000011#32 = .ok (.sched 1) ∧
  decode 0x12345603#32 = .ok (.sched 0x123456) ∧
  decode 0b00000000000000000000000000001000#32 = .ok .compress ∧
  decode 0b00000000000000000000000000001001#32 = .ok .encode ∧
  decode 0b00000000000000000000000000001010#32 = .ok .hash

/-- R103: a reserved opcode, with any imm24, is accepted and completes with E_ILLEGAL_OPCODE and no other effect; a
valid opcode with a nonzero imm24 that must be 0 raises E_BAD_OPERAND; the word 0 is the only one that is NOP. -/
def Obligations.ReservedEncodingsAreErrors : Prop :=
  (∀ (s : State) (cmd : Word) (rest : List Event),
    s.status.busy = false → s.agenda = .write (s.cfg.base + 0x00C) .word cmd :: rest →
    ∃ t, step s = .next t ∧ t.pending = some cmd ∧ t.reply = some (.write .okay)) ∧
  (∀ (s : State) (cmd : Word), s.CoreHasTurn → s.pending = some cmd →
    (0x0B ≤ cmd.toNat % 256 →
      step s = .next { s.turnTaken with
        pending := none
        status := { s.status with busy := false, done := true, err := true, errcode := 0x01 }
        errcmd := cmd
        irq := s.ctrl.ie }) ∧
    (cmd.toNat % 256 ≤ 0x0A → cmd.toNat % 256 ≠ 0x03 → cmd.toNat / 256 ≠ 0 →
      step s = .next { s.turnTaken with
        pending := none
        status := { s.status with busy := false, done := true, err := true, errcode := 0x02 }
        errcmd := cmd
        irq := s.ctrl.ie })) ∧
  (∀ cmd : Word, decode cmd = .ok .nop ↔ cmd = 0)

/-! ## Steps -/

/-- R105: CORE's step decodes PENDING and performs the command, or raises the decode error. What the model does with a
turn of CORE while PENDING = none is its own choice (log 7). -/
def Obligations.CoreStepRunsPendingCommand : Prop :=
  ∀ s : State, s.CoreHasTurn →
    (∀ cmd i, s.pending = some cmd → decode cmd = .ok i → step s = exec i s.turnTaken) ∧
    (∀ cmd e, s.pending = some cmd → decode cmd = .error e →
      step s = .next { s.turnTaken with
        pending := none
        status := { s.status with busy := false, done := true, err := true, errcode := e.code }
        errcmd := cmd
        irq := s.ctrl.ie }) ∧
    (s.pending = none → step s = .next s.turnTaken)

/-- R224, R246: no error and no access stops the block; every step answers a next state (the model's reading, log 24). -/
def Obligations.NoStepEverStops : Prop := ∀ s : State, ∃ t, step s = .next t

/-- R242, R244: every CORE step completes the command with the code of the first check that fails, and ERRCMD and ERR
record an error; BUSERR and CTRL are untouched. -/
def Obligations.CompletionRecordsFirstError : Prop :=
  ∀ (s : State) (cmd : Word), s.CoreHasTurn → s.pending = some cmd →
    ∃ t, step s = .next t ∧
      t.pending = none ∧
      t.status.busy = false ∧
      t.status.done = true ∧
      t.status.errcode = (match expectedError cmd s with
        | none => 0x00
        | some .illegalOpcode => 0x01
        | some .badOperand => 0x02
        | some .lenOverflow => 0x03
        | some .capacity => 0x04
        | some .blockRange => 0x05
        | some .roundOverrun => 0x06
        | some .roundIncomplete => 0x07) ∧
      t.status.err = (s.status.err || (expectedError cmd s).isSome) ∧
      t.errcmd = (if (expectedError cmd s).isSome then cmd else s.errcmd) ∧
      t.status.buserr = s.status.buserr ∧
      t.ctrl = s.ctrl ∧
      t.irq = s.ctrl.ie

/-- R243: a command that raises an error changes nothing but the completion fields. -/
def Obligations.ErrorsArePrecise : Prop :=
  ∀ (s : State) (cmd : Word) (e : CmdError), s.CoreHasTurn → s.pending = some cmd → expectedError cmd s = some e →
    step s = .next { s.turnTaken with
      pending := none
      status := { s.status with busy := false, done := true, err := true, errcode := e.code }
      errcmd := cmd
      irq := s.ctrl.ie }

/-- R248, which the spec marks derived: a bus error and a completion write disjoint STATUS bits, so their order does not matter. -/
def Obligations.BusErrorAndCompletionCommute : Prop :=
  ∀ (s t : State), s.CoreHasTurn → s.pending.isSome = true → step s = .next t →
    step { s with status := { s.status with buserr := true } } =
      .next { t with status := { t.status with buserr := true } }

/-! ## The invariant -/

/-- The invariant holds after reset, for every pair of parameters in range (R280, R282). -/
def Obligations.ResetMeetsInvariant : Prop :=
  (∀ c : Config, c.wf → (State.resetOf c).Inv) ∧ State.reset.Inv

/-- Every step, of HOST, CORE or the platform, keeps the invariant: M stays canonical and in range, PENDING goes with
BUSY, irq is IE AND DONE, ERRCODE, PLEN and RCNT stay in their ranges (R24, R29, R30, R36, R38, R39, R241). -/
def Obligations.StepKeepsInvariant : Prop :=
  ∀ s t : State, s.Inv → step s = .next t → t.Inv

/-- R22, R31: no step changes the parameters, so ID and BUFBLK read the same constants for ever. -/
def Obligations.ParametersNeverChange : Prop :=
  ∀ s t : State, step s = .next t →
    t.cfg = s.cfg ∧ t.regValue .id = 0x53484131 ∧ t.regValue .bufblk = BitVec.ofNat 32 s.cfg.bufBlocks

/-- R27, R28, R29, R30, R35: which steps can change ERRCMD, LEN, PLEN, RCNT and HEX. -/
def Obligations.OnlyNamedStepsWriteEachRegister : Prop :=
  ∀ s t : State, step s = .next t → s.agenda.head? ≠ some .reset →
    (t.errcmd ≠ s.errcmd → s.CoreHasTurn ∧ ∃ cmd e, s.pending = some cmd ∧ expectedError cmd s = some e ∧ t.errcmd = cmd) ∧
    (t.len ≠ s.len → ∃ addr v, s.agenda.head? = some (.write addr .word v)
      ∧ (addr = s.cfg.base + 0x014 ∨ addr = s.cfg.base + 0x018)) ∧
    (t.plen ≠ s.plen → s.Performs .pad ∨ s.Performs .hash) ∧
    (t.rcnt ≠ s.rcnt → s.Performs .init ∨ s.Performs .loadw ∨ s.Performs .round ∨ s.Performs .feedfwd
      ∨ s.Performs .compress ∨ s.Performs .hash) ∧
    (t.hex ≠ s.hex → s.Performs .encode ∨ s.Performs .hash)

/-- R300: an accepted command completes (or a reset drops it). The bound, one step more than the agenda is long, is the
model's form of weak fairness (log 6). -/
def Obligations.AcceptedCommandCompletes : Prop :=
  ∀ s : State, s.pending.isSome = true →
    ∃ k t, k ≤ s.agenda.length + 1 ∧ core.run k s = .next t ∧ t.pending = none

/-! ## Reset -/

/-- The values of IV and K: those of R170 and R171, which the spec marks as general knowledge (log 13). -/
def Obligations.ConstantTableValues : Prop :=
  iv = #v[0x67452301, 0xEFCDAB89, 0x98BADCFE, 0x10325476, 0xC3D2E1F0] ∧
  roundConst 0 = 0x5A827999 ∧ roundConst 1 = 0x6ED9EBA1 ∧ roundConst 2 = 0x8F1BBCDC ∧ roundConst 3 = 0xCA62C1D6

/-- R280: one step sets every register to its reset value, drops the command in progress and makes every element of M,
W and HEX unwritten. That the parameters, the agenda, the reply and the count of free values stay is the model's own
choice (log 17, and log 4 for the count), not R280's. -/
def Obligations.ResetSetsEveryRegister : Prop :=
  ∀ (s : State) (rest : List Event), s.agenda = .reset :: rest →
    ∃ t, step s = .next t ∧
      t.pending = none ∧ t.regValue .id = 0x53484131 ∧ t.regValue .ctrl = 0 ∧ t.regValue .status = 0 ∧ t.errcmd = 0 ∧
      t.len = 0 ∧ t.plen = 0 ∧ t.rcnt = 0 ∧ t.regValue .bufblk = BitVec.ofNat 32 s.cfg.bufBlocks ∧
      t.h = iv ∧ t.wk = ⟨iv[0], iv[1], iv[2], iv[3], iv[4]⟩ ∧
      (∀ o, t.mem.find o = .unwritten) ∧ (∀ i, t.wElem i = .unwritten) ∧ (∀ j, t.hexElem j = .unwritten) ∧
      t.irq = false ∧ t.cfg = s.cfg ∧ t.agenda = rest ∧ t.reply = s.reply ∧ t.draws = s.draws

/-! ## Host accesses -/

/-- R61: an address outside the window does not reach the block: no effect and no reply (log 15). -/
def Obligations.AccessOutsideWindowHasNoEffect : Prop :=
  ∀ (s : State) (addr : Nat) (sz : Size) (v : Word) (rest : List Event),
    (addr < s.cfg.base ∨ s.cfg.base + 2 ^ 31 ≤ addr) →
    (s.agenda = .read addr sz :: rest → step s = .next { s with agenda := rest }) ∧
    (s.agenda = .write addr sz v :: rest → step s = .next { s with agenda := rest })

/-- R64: a misaligned word access, and a byte access outside HEX and MSG, is a bus error, read or write, busy or idle. -/
def Obligations.IllegalSizeOrAlignmentIsBusError : Prop :=
  ∀ (s : State) (a : Nat) (sz : Size) (v : Word) (rest : List Event), a < 2 ^ 31 →
    ((sz = .word ∧ a % 4 ≠ 0) ∨ (sz = .byte ∧ ¬ inByteRegion s.cfg a)) →
    (s.agenda = .read (s.cfg.base + a) sz :: rest →
      ∃ t, step s = .next t ∧ t.reply = some (.read 0 .error) ∧ t.status = { s.status with buserr := true }) ∧
    (s.agenda = .write (s.cfg.base + a) sz v :: rest →
      ∃ t, step s = .next t ∧ t.reply = some (.write .error) ∧ t.status = { s.status with buserr := true })

/-- R70, R71: a read is refused exactly where the map refuses it, with rdata 0 and no change but BUSERR; a read that is
not refused answers OKAY and changes no state of the block. -/
def Obligations.ReadsAreRefusedOrHaveNoEffect : Prop :=
  ∀ (s : State) (a : Nat) (sz : Size) (rest : List Event), a < 2 ^ 31 →
    s.agenda = .read (s.cfg.base + a) sz :: rest →
    (¬ readAllowed s.cfg a sz →
      step s = .next { s with
        status := { s.status with buserr := true }
        irq := s.ctrl.ie && s.status.done
        agenda := rest
        reply := some (.read 0 .error) }) ∧
    (readAllowed s.cfg a sz →
      ∃ v n, step s = .next { s with
        irq := s.ctrl.ie && s.status.done
        agenda := rest
        reply := some (.read v .okay)
        draws := n })

/-- R70, R74: a write is refused exactly where the map, a read-only target or the busy rule refuses it, and then
changes nothing but BUSERR; otherwise it answers OKAY. -/
def Obligations.WritesAreRefusedExactly : Prop :=
  ∀ (s : State) (a : Nat) (sz : Size) (v : Word) (rest : List Event), a < 2 ^ 31 →
    s.agenda = .write (s.cfg.base + a) sz v :: rest →
    (¬ writeAllowed s a sz →
      step s = .next { s with
        status := { s.status with buserr := true }
        irq := s.ctrl.ie && s.status.done
        agenda := rest
        reply := some (.write .error) }) ∧
    (writeAllowed s a sz → ∃ t, step s = .next t ∧ t.reply = some (.write .okay) ∧ t.status.buserr
      = (s.status.buserr && !(a == 0x008 && v.getLsbD 3)))

/-- R104, R26: a word write to CMD while idle accepts any value and changes only PENDING, BUSY and DONE (and irq, R39);
while busy it is a bus error and leaves PENDING unchanged. -/
def Obligations.CommandAcceptance : Prop :=
  ∀ (s : State) (v : Word) (rest : List Event), s.agenda = .write (s.cfg.base + 0x00C) .word v :: rest →
    (s.status.busy = false →
      step s = .next { s with
        pending := some v
        status := { s.status with busy := true, done := false }
        irq := false
        agenda := rest
        reply := some (.write .okay) }) ∧
    (s.status.busy = true →
      ∃ t, step s = .next t ∧ t.pending = s.pending ∧ t.reply = some (.write .error)
        ∧ t.status = { s.status with buserr := true })

/-- R25: a word write to STATUS clears DONE, ERR and BUSERR where v has a 1, changes nothing else, and is permitted
while busy. -/
def Obligations.StatusWriteClearsBits : Prop :=
  ∀ (s : State) (v : Word) (rest : List Event), s.agenda = .write (s.cfg.base + 0x008) .word v :: rest →
    ∃ t, step s = .next t ∧
      t.reply = some (.write .okay) ∧
      t.status.done = (s.status.done && !v.getLsbD 1) ∧
      t.status.err = (s.status.err && !v.getLsbD 2) ∧
      t.status.buserr = (s.status.buserr && !v.getLsbD 3) ∧
      t.status.busy = s.status.busy ∧
      t.status.errcode = s.status.errcode ∧
      t = { s with status := t.status, irq := t.irq, agenda := rest, reply := t.reply }

/-- R23, R250: CTRL is 0 at reset; a word write to it, also while busy, sets IE to v[0] and nothing else; irq follows. -/
def Obligations.ControlWriteSetsInterruptEnable : Prop :=
  (∀ c : Config, (State.resetOf c).regValue .ctrl = 0) ∧
  ∀ (s : State) (v : Word) (rest : List Event), s.agenda = .write (s.cfg.base + 0x004) .word v :: rest →
    ∃ t, step s = .next t ∧
      t.regValue .ctrl = v &&& 1 ∧
      t.irq = (v.getLsbD 0 && s.status.done) ∧
      t.reply = some (.write .okay) ∧
      t = { s with ctrl := t.ctrl, irq := t.irq, agenda := rest, reply := t.reply }

/-- R24: every bit of the word STATUS reads as. -/
def Obligations.StatusWordFields : Prop :=
  ∀ s : State,
    (s.regValue .status).getLsbD 0 = s.status.busy ∧
    (s.regValue .status).getLsbD 1 = s.status.done ∧
    (s.regValue .status).getLsbD 2 = s.status.err ∧
    (s.regValue .status).getLsbD 3 = s.status.buserr ∧
    (s.regValue .status).extractLsb' 4 4 = 0 ∧
    (s.regValue .status).extractLsb' 8 8 = s.status.errcode ∧
    (s.regValue .status).extractLsb' 16 16 = 0

/-- R250: irq is the level IE AND DONE after a step of either agent, every completion sets DONE, each of the four ways
clears irq, and no bus error raises it. -/
def Obligations.InterruptLevelAndClearing : Prop :=
  (∀ s t : State, s.Inv → step s = .next t → t.irq = (t.ctrl.ie && t.status.done)) ∧
  (∀ (s t : State) (cmd : Word), s.CoreHasTurn → s.pending = some cmd → step s = .next t →
    t.irq = s.ctrl.ie ∧ t.status.done = true) ∧
  (∀ (s t : State) (rest : List Event) (v : Word), step s = .next t →
    (s.agenda = .write (s.cfg.base + 0x008) .word v :: rest → v.getLsbD 1 = true → t.irq = false) ∧
    (s.agenda = .write (s.cfg.base + 0x004) .word v :: rest → v.getLsbD 0 = false → t.irq = false) ∧
    (s.agenda = .write (s.cfg.base + 0x00C) .word v :: rest → s.status.busy = false → t.irq = false) ∧
    (s.agenda = .reset :: rest → t.irq = false)) ∧
  (∀ (s : State) (a : Nat) (sz : Size) (v : Word) (rest : List Event), a < 2 ^ 31 → s.irq = false → s.Inv →
    (¬ readAllowed s.cfg a sz → s.agenda = .read (s.cfg.base + a) sz :: rest →
      ∃ t, step s = .next t ∧ t.irq = false) ∧
    (¬ writeAllowed s a sz → s.agenda = .write (s.cfg.base + a) sz v :: rest →
      ∃ t, step s = .next t ∧ t.irq = false))

/-- R75: while busy, ID, CTRL, STATUS, CMD and BUFBLK read as when idle; any other legal read answers OKAY and a fresh
free value; neither changes the block. That a byte read too gives a full 32-bit free value is the model's own choice
(R75 beside R60: log 10). -/
def Obligations.BusyReadsAreExactOrFree : Prop :=
  ∀ (s : State) (a : Nat) (sz : Size) (rest : List Event), s.status.busy = true → readAllowed s.cfg a sz →
    a < 2 ^ 31 → s.agenda = .read (s.cfg.base + a) sz :: rest →
    (∀ p ∈ [(0x000, idValue), (0x004, s.ctrl.word), (0x008, s.status.word), (0x00C, 0), (0x024, s.regValue .bufblk)],
      a = p.1 → step s = .next { s with
        irq := s.ctrl.ie && s.status.done
        agenda := rest
        reply := some (.read p.2 .okay) }) ∧
    (a ∉ [0x000, 0x004, 0x008, 0x00C, 0x024] → step s = .next { s with
        irq := s.ctrl.ie && s.status.done
        agenda := rest
        reply := some (.read (Config.draw s.draws) .okay)
        draws := s.draws + 1 })

/-- R65, R28, R32, R33, R34: while idle, a word write to LEN_LO, LEN_HI, H0..H4, A..E or W[t] stores the word there and
nowhere else. -/
def Obligations.RegisterWritesStoreOneRegister : Prop :=
  ∀ (s : State) (a : Nat) (v : Word) (rest : List Event), s.status.busy = false →
    s.agenda = .write (s.cfg.base + a) .word v :: rest →
    let u : State := { s with irq := s.ctrl.ie && s.status.done, agenda := rest, reply := some (.write .okay) }
    (a = 0x014 → step s = .next { u with lenLo := v }) ∧
    (a = 0x018 → step s = .next { u with lenHi := v }) ∧
    (∀ i : Fin 5, a = 0x040 + 4 * i.val → step s = .next { u with h := s.h.set i v }) ∧
    (a = 0x060 → step s = .next { u with wk := { s.wk with a := v } }) ∧
    (a = 0x064 → step s = .next { u with wk := { s.wk with b := v } }) ∧
    (a = 0x068 → step s = .next { u with wk := { s.wk with c := v } }) ∧
    (a = 0x06C → step s = .next { u with wk := { s.wk with d := v } }) ∧
    (a = 0x070 → step s = .next { u with wk := { s.wk with e := v } }) ∧
    (∀ i : Fin 80, a = 0x100 + 4 * i.val → step s = .next { u with w := s.w.set i (.written v) })

/-- R65, R22 to R34: what an aligned word read of each register returns while idle; an unwritten W[t] reads as a fresh
free value (R281). -/
def Obligations.RegisterReadsReturnTheRegister : Prop :=
  ∀ (s : State) (a : Nat) (rest : List Event), s.status.busy = false →
    s.agenda = .read (s.cfg.base + a) .word :: rest →
    (∀ p ∈ [(0x000, 0x53484131), (0x004, s.ctrl.word), (0x008, s.status.word), (0x00C, 0), (0x010, s.errcmd),
        (0x014, s.lenLo), (0x018, s.lenHi), (0x01C, s.plen), (0x020, BitVec.ofNat 32 s.rcnt.toNat),
        (0x024, BitVec.ofNat 32 s.cfg.bufBlocks), (0x040, s.h[0]), (0x044, s.h[1]), (0x048, s.h[2]), (0x04C, s.h[3]),
        (0x050, s.h[4]), (0x060, s.wk.a), (0x064, s.wk.b), (0x068, s.wk.c), (0x06C, s.wk.d), (0x070, s.wk.e)],
      a = p.1 → ∃ t, step s = .next t ∧ t.reply = some (.read p.2 .okay) ∧ t.draws = s.draws) ∧
    (∀ i : Fin 80, a = 0x100 + 4 * i.val →
      (∀ v, s.w[i] = .written v → ∃ t, step s = .next t ∧ t.reply = some (.read v .okay) ∧ t.draws = s.draws) ∧
      (s.w[i] = .unwritten → ∃ t, step s = .next t ∧ t.reply = some (.read (Config.draw s.draws) .okay)
        ∧ t.draws = s.draws + 1 ∧ t.w[i] = .unwritten))

/-- R60, R68, R69: while idle, a write to M stores v[7:0], or the four bytes of v with the most significant one first,
and changes no other byte and no register. -/
def Obligations.MessageBufferWrites : Prop :=
  ∀ (s : State) (o : Nat) (v : Word) (rest : List Event), s.status.busy = false → s.cfg.wf → o < s.cfg.bufBytes →
    (s.agenda = .write (s.cfg.base + 0x40000000 + o) .byte v :: rest →
      ∃ m, step s = .next { s with
          mem := m, irq := s.ctrl.ie && s.status.done, agenda := rest, reply := some (.write .okay) } ∧
        ∀ x, m.find x = if x = o then .written (v.extractLsb' 0 8) else s.mem.find x) ∧
    (o % 4 = 0 → s.agenda = .write (s.cfg.base + 0x40000000 + o) .word v :: rest →
      ∃ m, step s = .next { s with
          mem := m, irq := s.ctrl.ie && s.status.done, agenda := rest, reply := some (.write .okay) } ∧
        ∀ x, m.find x =
          if x = o then .written (v.extractLsb' 24 8)
          else if x = o + 1 then .written (v.extractLsb' 16 8)
          else if x = o + 2 then .written (v.extractLsb' 8 8)
          else if x = o + 3 then .written (v.extractLsb' 0 8)
          else s.mem.find x)

/-- R67, R69, R281: while idle, a byte read of M returns the byte, a word read four bytes with the first in bits 31:24;
each unwritten byte reads as a free value of its own. -/
def Obligations.MessageBufferReads : Prop :=
  ∀ (s : State) (o : Nat) (rest : List Event), s.status.busy = false → s.cfg.wf → o < s.cfg.bufBytes →
    (s.agenda = .read (s.cfg.base + 0x40000000 + o) .byte :: rest →
      ∃ t b, step s = .next t ∧ t.reply = some (.read (BitVec.ofNat 32 (BitVec.toNat (w := 8) b)) .okay) ∧
        t.mem = s.mem ∧ (∀ x, s.mem.find o = .written x → b = x ∧ t.draws = s.draws) ∧
        (s.mem.find o = .unwritten → b = (Config.draw s.draws).setWidth 8 ∧ t.draws = s.draws + 1)) ∧
    (o % 4 = 0 → s.agenda = .read (s.cfg.base + 0x40000000 + o) .word :: rest →
      ∃ t v, step s = .next t ∧ t.reply = some (.read v .okay) ∧ t.mem = s.mem ∧
        ∀ j x, j < 4 → s.mem.find (o + j) = .written x → v.extractLsb' (24 - 8 * j) 8 = x)

/-- R66, R281: reads of HEX return the character, or four of them with the first in bits 31:24; an unwritten character
reads as a free value; any write to HEX is a bus error. -/
def Obligations.HexReads : Prop :=
  (∀ (s : State) (j : Nat) (rest : List Event), s.status.busy = false → j < 40 →
    s.agenda = .read (s.cfg.base + 0x080 + j) .byte :: rest →
    ∃ t b, step s = .next t ∧ t.reply = some (.read (BitVec.ofNat 32 (BitVec.toNat (w := 8) b)) .okay) ∧
      t.hex = s.hex ∧ (∀ x, s.hexElem j = .written x → b = x ∧ t.draws = s.draws) ∧
      (s.hexElem j = .unwritten → b = (Config.draw s.draws).setWidth 8 ∧ t.draws = s.draws + 1)) ∧
  (∀ (s : State) (k : Nat) (rest : List Event), s.status.busy = false → k < 10 →
    s.agenda = .read (s.cfg.base + 0x080 + 4 * k) .word :: rest →
    ∃ t v, step s = .next t ∧ t.reply = some (.read v .okay) ∧ t.hex = s.hex ∧
      ∀ j x, j < 4 → s.hexElem (4 * k + j) = .written x → v.extractLsb' (24 - 8 * j) 8 = x) ∧
  (∀ (s : State) (j : Nat) (sz : Size) (v : Word) (rest : List Event), j < 40 →
    s.agenda = .write (s.cfg.base + 0x080 + j) sz v :: rest →
    ∃ t, step s = .next t ∧ t.reply = some (.write .error) ∧ t.hex = s.hex)

/-! ## Results and completion of the commands -/

/-- R220: NOP only completes. -/
def Obligations.NopOnlyCompletes : Prop :=
  decode 0x00000000 = .ok .nop ∧
  (∀ imm : BitVec 24, imm ≠ 0 → decode (imm ++ 0x00#8) = .error .badOperand) ∧
  ∀ s : State, exec .nop s = .next { s with
    pending := none, status := s.status.succeeded, irq := s.ctrl.ie }

/-- R174: INIT loads IV into H and A..E and clears RCNT; twice is the same as once. -/
def Obligations.InitLoadsTheInitialDigest : Prop :=
  decode 0x00000001 = .ok .init ∧
  (∀ imm : BitVec 24, imm ≠ 0 → decode (imm ++ 0x01#8) = .error .badOperand) ∧
  (∀ s : State, exec .init s = .next { s with
    h := iv, wk := ⟨iv[0], iv[1], iv[2], iv[3], iv[4]⟩, rcnt := 0
    pending := none, status := s.status.succeeded, irq := s.ctrl.ie }) ∧
  (∀ s t : State, exec .init s = .next t → exec .init t = .next t)

/-- R175: LOADW copies H into A..E and clears RCNT, at any RCNT. -/
def Obligations.LoadwStartsABlock : Prop :=
  decode 0x00000005 = .ok .loadw ∧
  (∀ imm : BitVec 24, imm ≠ 0 → decode (imm ++ 0x05#8) = .error .badOperand) ∧
  ∀ s : State, exec .loadw s = .next { s with
    wk := ⟨s.h[0], s.h[1], s.h[2], s.h[3], s.h[4]⟩
    rcnt := 0, pending := none, status := s.status.succeeded, irq := s.ctrl.ie }

/-- R172, R173, R176: ROUND below 80 performs the round t = RCNT with the word read from W[t], a free value where W[t]
is unwritten (R281), and counts; at 80 it raises E_ROUND_OVERRUN and changes no register. -/
def Obligations.RoundPerformsOneRound : Prop :=
  decode 0x00000006 = .ok .round ∧
  (∀ imm : BitVec 24, imm ≠ 0 → decode (imm ++ 0x06#8) = .error .badOperand) ∧
  (∀ (s : State) (v : Word), s.rcnt.toNat < 80 →
    (s.wElem s.rcnt.toNat = .written v ∨ (s.wElem s.rcnt.toNat = .unwritten ∧ v = Config.draw s.draws)) →
    let t := s.rcnt.toNat
    let x := s.wk
    let f := if t < 20 then (x.b &&& x.c) ||| (~~~x.b &&& x.d)
      else if t < 40 then x.b ^^^ x.c ^^^ x.d
      else if t < 60 then (x.b &&& x.c) ||| (x.b &&& x.d) ||| (x.c &&& x.d)
      else x.b ^^^ x.c ^^^ x.d
    let k : Word := if t < 20 then roundConst 0 else if t < 40 then roundConst 1
      else if t < 60 then roundConst 2 else roundConst 3
    exec .round s = .next { s with
      wk := ⟨x.a.rotateLeft 5 + f + x.e + k + v, x.a, x.b.rotateLeft 30, x.c, x.d⟩
      rcnt := BitVec.ofNat 7 (t + 1)
      draws := if s.wElem t = .unwritten then s.draws + 1 else s.draws
      pending := none, status := s.status.succeeded, irq := s.ctrl.ie }) ∧
  (∀ s : State, 80 ≤ s.rcnt.toNat → exec .round s = .next { s with
    pending := none
    status := { s.status with busy := false, done := true, err := true, errcode := 0x06 }
    errcmd := 0x00000006
    irq := s.ctrl.ie })

/-- R177: FEEDFWD at RCNT = 80 adds the working registers to H, copies the sums to A..E and clears RCNT; at any other
RCNT it raises E_ROUND_INCOMPLETE and changes no register; a second one right after a successful one raises it too. -/
def Obligations.FeedfwdAddsTheSnapshot : Prop :=
  decode 0x00000007 = .ok .feedfwd ∧
  (∀ imm : BitVec 24, imm ≠ 0 → decode (imm ++ 0x07#8) = .error .badOperand) ∧
  (∀ s : State, s.rcnt.toNat = 80 → exec .feedfwd s = .next { s with
    h := #v[s.h[0] + s.wk.a, s.h[1] + s.wk.b, s.h[2] + s.wk.c, s.h[3] + s.wk.d, s.h[4] + s.wk.e]
    wk := ⟨s.h[0] + s.wk.a, s.h[1] + s.wk.b, s.h[2] + s.wk.c, s.h[3] + s.wk.d, s.h[4] + s.wk.e⟩
    rcnt := 0, pending := none, status := s.status.succeeded, irq := s.ctrl.ie }) ∧
  (∀ s : State, s.rcnt.toNat ≠ 80 → exec .feedfwd s = .next { s with
    pending := none
    status := { s.status with busy := false, done := true, err := true, errcode := 0x07 }
    errcmd := 0x00000007
    irq := s.ctrl.ie }) ∧
  (∀ s t : State, s.rcnt.toNat = 80 → exec .feedfwd s = .next t →
    ∃ u, exec .feedfwd t = .next u ∧ u.status.errcode = 0x07 ∧ u.h = t.h)

/-- R178, and R179 which the spec marks derived: COMPRESS adds Rounds80(S, W) to the digest S, whatever RCNT and A..E it starts
with; unwritten words of W read as free values (R281). -/
def Obligations.CompressComputesRounds80 : Prop :=
  decode 0x00000008 = .ok .compress ∧
  (∀ imm : BitVec 24, imm ≠ 0 → decode (imm ++ 0x08#8) = .error .badOperand) ∧
  ∀ s : State, ∃ (v : Nat → Word) (n : Nat),
    (∀ i x, i < 80 → s.wElem i = .written x → v i = x) ∧
    ((∀ i, i < 80 → s.wElem i ≠ .unwritten) → n = s.draws) ∧
    let r := rounds80 v ⟨s.h[0], s.h[1], s.h[2], s.h[3], s.h[4]⟩
    exec .compress s = .next { s with
      h := #v[s.h[0] + r.a, s.h[1] + r.b, s.h[2] + r.c, s.h[3] + r.d, s.h[4] + r.e]
      wk := ⟨s.h[0] + r.a, s.h[1] + r.b, s.h[2] + r.c, s.h[3] + r.d, s.h[4] + r.e⟩
      rcnt := 0, draws := n, pending := none, status := s.status.succeeded, irq := s.ctrl.ie }

/-- R180, which the spec marks derived: LOADW, 80 times ROUND and FEEDFWD as 82 commands leave exactly the state one COMPRESS leaves. -/
def Obligations.CompressEqualsEightyTwoCommands : Prop :=
  ∀ s : State,
    issueAll ([.loadw] ++ List.replicate 80 .round ++ [.feedfwd]) s = issueAll [.compress] s

/-- R182, which the spec marks derived: after LOADW, k rounds leave RCNT = k, for every k up to 80. -/
def Obligations.RoundCounterCountsRounds : Prop :=
  ∀ (s : State) (k : Nat), k ≤ 80 →
    ∃ t, issueAll ([.loadw] ++ List.replicate k .round) s = .next t ∧ t.rcnt.toNat = k ∧ t.status.errcode = 0

/-- R131, R132, and R133 which the spec marks derived: PAD with LEN in range writes 0x80, the zero bytes and the big-endian bit length, leaves every
other byte of M as it was, and sets PLEN; it changes nothing else but the completion fields. -/
def Obligations.PadWritesThePadding : Prop :=
  ∀ s : State, s.cfg.wf → s.PadFits →
    let L := s.len.toNat
    let P := 64 * ((L + 8) / 64 + 1)
    ∃ m, exec .pad s = .next { s with
        mem := m, plen := BitVec.ofNat 32 P, pending := none, status := s.status.succeeded, irq := s.ctrl.ie } ∧
      (∀ o, o < L → m.find o = s.mem.find o) ∧
      m.find L = .written 0x80 ∧
      (∀ o, L < o → o < P - 8 → m.find o = .written 0x00) ∧
      (∀ j, j < 8 → m.find (P - 8 + j) = .written (BitVec.ofNat 8 (L * 8 / 256 ^ (7 - j)))) ∧
      (∀ o, P ≤ o → m.find o = s.mem.find o) ∧
      (BitVec.ofNat 32 P).toNat = P ∧ P % 64 = 0 ∧ 64 ≤ P ∧ P ≤ s.cfg.bufBytes ∧ L + 9 ≤ P ∧ P ≤ L + 72

/-- R131, R244: PAD's and HASH's two errors in their order, each leaving M and PLEN unchanged. -/
def Obligations.PadAndHashErrors : Prop :=
  ∀ (s : State) (i : Instr), i = .pad ∨ i = .hash →
    (2 ^ 61 ≤ s.len.toNat → exec i s = .next { s with
      pending := none
      status := { s.status with busy := false, done := true, err := true, errcode := 0x03 }
      errcmd := if i = .pad then 0x00000002 else 0x0000000A
      irq := s.ctrl.ie }) ∧
    (s.len.toNat < 2 ^ 61 → s.cfg.bufBytes < 64 * ((s.len.toNat + 8) / 64 + 1) → exec i s = .next { s with
      pending := none
      status := { s.status with busy := false, done := true, err := true, errcode := 0x04 }
      errcmd := if i = .pad then 0x00000002 else 0x0000000A
      irq := s.ctrl.ie })

/-- R136, which the spec marks derived: PAD twice with the same LEN leaves the same state as once. -/
def Obligations.PadIsIdempotent : Prop :=
  ∀ s t : State, s.PadFits → s.mem.wf → exec .pad s = .next t → exec .pad t = .next t

/-- R130, whose closed form the spec marks derived, R134, and R10 which the spec marks derived: the padded length is the
least multiple of 64 from L + 9 on, takes one block more when L mod 64 is in 56 .. 63, and fits exactly the lengths up to BUF_BYTES - 9. -/
def Obligations.PaddedLengthLaws : Prop :=
  ∀ L : Nat,
    padLength L % 64 = 0 ∧ L + 9 ≤ padLength L ∧ (∀ n, n % 64 = 0 → L + 9 ≤ n → padLength L ≤ n) ∧
    (L % 64 ≤ 55 → padLength L / 64 = L / 64 + 1) ∧
    (56 ≤ L % 64 → padLength L / 64 = L / 64 + 2) ∧
    (∀ c : Config, c.wf → (padLength L ≤ c.bufBytes ↔ L ≤ c.bufBytes - 9))

/-- R150, R152, R153: SCHED b in range writes all 80 words of W: the block's words big-endian, then the recurrence; an
unwritten byte of the block reads as a free value (R281). Out of range it raises E_BLOCK_RANGE and changes nothing else. -/
def Obligations.SchedBuildsTheSchedule : Prop :=
  (∀ b, b < 2 ^ 24 → decode (BitVec.ofNat 32 (b * 2 ^ 8 + 0x03)) = .ok (.sched b)) ∧
  (∀ (s : State) (b : Nat), b < s.plen.toNat / 64 →
    ∃ (v : Nat → Word) (n : Nat),
      exec (.sched b) s = .next { s with
        w := Vector.ofFn fun i => .written (v i.val)
        draws := n, pending := none, status := s.status.succeeded, irq := s.ctrl.ie } ∧
      (∀ i j x, i < 16 → j < 4 → s.mem.find (64 * b + 4 * i + j) = .written x →
        (v i).extractLsb' (24 - 8 * j) 8 = x) ∧
      (∀ i, 16 ≤ i → i < 80 → v i = (v (i - 3) ^^^ v (i - 8) ^^^ v (i - 14) ^^^ v (i - 16)).rotateLeft 1) ∧
      ((∀ o, 64 * b ≤ o → o < 64 * b + 64 → s.mem.find o ≠ .unwritten) → n = s.draws)) ∧
  (∀ (s : State) (b : Nat), s.plen.toNat / 64 ≤ b → exec (.sched b) s = .next { s with
    pending := none
    status := { s.status with busy := false, done := true, err := true, errcode := 0x05 }
    errcmd := encode (.sched b)
    irq := s.ctrl.ie })

/-- R152, R154: EXPAND leaves W[0..15] and writes W[16..79] by the recurrence; each read of an unwritten word is a free
value of its own (R281). -/
def Obligations.ExpandFollowsTheRecurrence : Prop :=
  ∀ s : State, ∃ (v : Nat → Word) (r : Nat → Nat → Word) (n : Nat),
    exec .expand s = .next { s with
      w := Vector.ofFn fun i => if i.val < 16 then s.w[i] else .written (v i.val)
      draws := n, pending := none, status := s.status.succeeded, irq := s.ctrl.ie } ∧
    (∀ i, 16 ≤ i → i < 80 → v i = (r i 3 ^^^ r i 8 ^^^ r i 14 ^^^ r i 16).rotateLeft 1) ∧
    (∀ i k, 16 ≤ i → i < 80 → (k = 3 ∨ k = 8 ∨ k = 14 ∨ k = 16) →
      (16 ≤ i - k → r i k = v (i - k)) ∧
      (∀ x, i - k < 16 → s.wElem (i - k) = .written x → r i k = x)) ∧
    ((∀ i, i < 16 → s.wElem i ≠ .unwritten) → n = s.draws)

/-- R154: where the block's bytes are written, SCHED b does what writing its words to W[0..15] and EXPAND does. -/
def Obligations.SchedEqualsLoadThenExpand : Prop :=
  ∀ (s : State) (b : Nat) (x : Nat → Byte), b < s.plen.toNat / 64 →
    (∀ k, k < 64 → s.mem.find (64 * b + k) = .written (x k)) →
    exec (.sched b) s = exec .expand { s with
      w := Vector.ofFn fun i => if i.val < 16
        then .written (x (4 * i.val) ++ x (4 * i.val + 1) ++ x (4 * i.val + 2) ++ x (4 * i.val + 3)) else s.w[i] }

/-- R155, which the spec marks derived: the schedule of the XOR of two blocks is the XOR of their schedules. -/
def Obligations.ExpansionIsLinear : Prop :=
  ∀ (s1 s2 s3 : State) (x1 x2 : Nat → Word),
    (∀ i, i < 16 → s1.wElem i = .written (x1 i) ∧ s2.wElem i = .written (x2 i)
      ∧ s3.wElem i = .written (x1 i ^^^ x2 i)) →
    ∃ (t1 t2 t3 : State) (v1 v2 : Nat → Word),
      exec .expand s1 = .next t1 ∧ exec .expand s2 = .next t2 ∧ exec .expand s3 = .next t3 ∧
      ∀ i, i < 80 → t1.wElem i = .written (v1 i) ∧ t2.wElem i = .written (v2 i)
        ∧ t3.wElem i = .written (v1 i ^^^ v2 i)

/-- R210, R211, R212: ENCODE writes the 40 characters of H, in the codes of ASCII (log 14), and nothing else but the
completion fields. -/
def Obligations.EncodeWritesHexText : Prop :=
  ∀ s : State, ∃ c : Nat → Byte,
    exec .encode s = .next { s with
      hex := Vector.ofFn fun j => .written (c j.val)
      pending := none, status := s.status.succeeded, irq := s.ctrl.ie } ∧
    ∀ (j : Nat) (hj : j < 40),
      let v := (s.h[j / 8]'(by omega)).toNat / 16 ^ (7 - j % 8) % 16
      (v ≤ 9 → c j = BitVec.ofNat 8 (0x30 + v)) ∧ (9 < v → c j = BitVec.ofNat 8 (0x61 + (v - 10)))

/-- R213, which the spec marks derived: the text determines the digest. -/
def Obligations.HexTextDeterminesDigest : Prop :=
  ∀ s1 s2 t1 t2 : State, exec .encode s1 = .next t1 → exec .encode s2 = .next t2 → t1.hex = t2.hex → s1.h = s2.h

/-- R221, and R223 which the spec marks derived, with the constants of R170 and R171 (log 13) and the codes of ASCII
(log 14): HASH of a written message in range leaves the SHA-1 digest of it in H and A..E and its hex text in HEX,
with PLEN, RCNT and the completion fields as the rule says. -/
def Obligations.HashComputesSha1 : Prop :=
  ∀ (s : State) (msg : List Byte), s.cfg.wf → s.PadFits → s.HoldsMessage msg →
    let d := Reference.digest msg
    ∃ t, exec .hash s = .next t ∧
      t.h = #v[d.1, d.2.1, d.2.2.1, d.2.2.2.1, d.2.2.2.2] ∧
      t.wk = ⟨d.1, d.2.1, d.2.2.1, d.2.2.2.1, d.2.2.2.2⟩ ∧
      (∀ j, j < 40 → t.hexElem j = .written ((Reference.toHex d).getD j 0)) ∧
      (∀ o, o < t.plen.toNat → t.mem.find o = .written ((Reference.pad msg).getD o 0)) ∧
      t.plen.toNat = (Reference.pad msg).length ∧
      (∀ i, i < 80 → t.wElem i = .written ((Reference.schedule (Reference.pad msg)
        ((Reference.pad msg).length / 64 - 1)).getD i 0)) ∧
      t.rcnt = 0 ∧ t.draws = s.draws ∧ s.CompletedOk t

/-- R221, and R285 which the spec marks derived: PAD, INIT, then SCHED b and COMPRESS for every block in order, then ENCODE, as separate commands, leave
exactly the state one HASH leaves. -/
def Obligations.HashEqualsItsComponents : Prop :=
  ∀ s : State, s.cfg.wf → s.PadFits →
    issueAll ([.pad, .init] ++ (List.range ((s.len.toNat + 8) / 64 + 1)).flatMap (fun b => [.sched b, .compress])
      ++ [.encode]) s = issueAll [.hash] s

/-- R222, which the spec marks derived: the result of HASH depends on LEN and M[0 .. LEN-1] alone, whatever else the two states hold, and a second
HASH leaves the same state. -/
def Obligations.HashDependsOnMessageOnly : Prop :=
  (∀ (s1 s2 : State) (msg : List Byte), s1.cfg.wf → s2.cfg.wf → s1.PadFits → s2.PadFits →
    s1.HoldsMessage msg → s2.HoldsMessage msg →
    ∃ t1 t2, exec .hash s1 = .next t1 ∧ exec .hash s2 = .next t2 ∧
      t1.h = t2.h ∧ t1.wk = t2.wk ∧ t1.hex = t2.hex ∧ t1.w = t2.w ∧ t1.plen = t2.plen ∧ t1.rcnt = t2.rcnt) ∧
  (∀ (s t : State) (msg : List Byte), s.cfg.wf → s.mem.wf → s.PadFits → s.HoldsMessage msg →
    exec .hash s = .next t → exec .hash t = .next t)

/-- HASH completes on every message in range, written or not: unwritten bytes read as free values (R221, R281). -/
def Obligations.HashCompletesOnUnwrittenMessages : Prop :=
  ∀ s : State, s.cfg.wf → s.PadFits →
    ∃ t, exec .hash s = .next t ∧ s.CompletedOk t ∧ t.rcnt = 0 ∧
      t.wk = ⟨t.h[0], t.h[1], t.h[2], t.h[3], t.h[4]⟩ ∧
      t.plen.toNat = 64 * ((s.len.toNat + 8) / 64 + 1) ∧
      (∀ i, i < 80 → t.wElem i ≠ .unwritten) ∧ (∀ j, j < 40 → t.hexElem j ≠ .unwritten)

/-! ## Frames -/

/-- What the commands that store nothing in M leave unchanged: all of M, PLEN, the host's side, and each datapath
register but those its rule names (R174 to R178, R153, R154, R211, R220). -/
def Obligations.FrameOfCommandsThatStoreNothing : Prop :=
  ∀ (i : Instr) (s t : State), i ≠ .pad → i ≠ .hash → exec i s = .next t →
    s.SameHostSide t ∧ (∀ o, t.mem.find o = s.mem.find o) ∧ t.plen = s.plen ∧
    (t.status.errcode = 0 → t.errcmd = s.errcmd ∧ t.status.err = s.status.err) ∧
    (i ≠ .init → i ≠ .feedfwd → i ≠ .compress → t.h = s.h) ∧
    (i ≠ .init → i ≠ .loadw → i ≠ .round → i ≠ .feedfwd → i ≠ .compress → t.wk = s.wk ∧ t.rcnt = s.rcnt) ∧
    ((∀ b, i ≠ .sched b) → i ≠ .expand → t.w = s.w) ∧
    (i ≠ .encode → t.hex = s.hex)

/-- What PAD leaves unchanged: every byte of M outside LEN .. P(LEN)-1, and every register but PLEN (R132). -/
def Obligations.FrameOfPad : Prop :=
  ∀ s t : State, exec .pad s = .next t →
    s.SameHostSide t ∧ t.h = s.h ∧ t.wk = s.wk ∧ t.rcnt = s.rcnt ∧ t.w = s.w ∧ t.hex = s.hex ∧ t.draws = s.draws ∧
    (t.status.errcode = 0 → t.errcmd = s.errcmd ∧ t.status.err = s.status.err) ∧
    ∀ o, (o < s.len.toNat ∨ padLength s.len.toNat ≤ o) → t.mem.find o = s.mem.find o

/-- What HASH leaves unchanged: every byte of M outside LEN .. P(LEN)-1, and the host's side (R221). -/
def Obligations.FrameOfHash : Prop :=
  ∀ s t : State, exec .hash s = .next t →
    s.SameHostSide t ∧
    (t.status.errcode = 0 → t.errcmd = s.errcmd ∧ t.status.err = s.status.err) ∧
    ∀ o, (o < s.len.toNat ∨ padLength s.len.toNat ≤ o) → t.mem.find o = s.mem.find o
end

