-- ==== Sys2Proof/Laws/State.lean ====
section
/-! SUPPORT. One lemma per field per update of the state: what each named update reads back, so that no proof unfolds a
record update. -/

namespace Sys2Proof.Machine

variable (s : State)

@[simp] theorem State.setCtrl_cfg (v : Ctrl) : (s.setCtrl v).cfg = s.cfg := rfl
@[simp] theorem State.setCtrl_ctrl (v : Ctrl) : (s.setCtrl v).ctrl = v := rfl
@[simp] theorem State.setCtrl_status (v : Ctrl) : (s.setCtrl v).status = s.status := rfl
@[simp] theorem State.setCtrl_errcmd (v : Ctrl) : (s.setCtrl v).errcmd = s.errcmd := rfl
@[simp] theorem State.setCtrl_lenLo (v : Ctrl) : (s.setCtrl v).lenLo = s.lenLo := rfl
@[simp] theorem State.setCtrl_lenHi (v : Ctrl) : (s.setCtrl v).lenHi = s.lenHi := rfl
@[simp] theorem State.setCtrl_plen (v : Ctrl) : (s.setCtrl v).plen = s.plen := rfl
@[simp] theorem State.setCtrl_rcnt (v : Ctrl) : (s.setCtrl v).rcnt = s.rcnt := rfl
@[simp] theorem State.setCtrl_h (v : Ctrl) : (s.setCtrl v).h = s.h := rfl
@[simp] theorem State.setCtrl_wk (v : Ctrl) : (s.setCtrl v).wk = s.wk := rfl
@[simp] theorem State.setCtrl_w (v : Ctrl) : (s.setCtrl v).w = s.w := rfl
@[simp] theorem State.setCtrl_hex (v : Ctrl) : (s.setCtrl v).hex = s.hex := rfl
@[simp] theorem State.setCtrl_mem (v : Ctrl) : (s.setCtrl v).mem = s.mem := rfl
@[simp] theorem State.setCtrl_pending (v : Ctrl) : (s.setCtrl v).pending = s.pending := rfl
@[simp] theorem State.setCtrl_irq (v : Ctrl) : (s.setCtrl v).irq = s.irq := rfl
@[simp] theorem State.setCtrl_agenda (v : Ctrl) : (s.setCtrl v).agenda = s.agenda := rfl
@[simp] theorem State.setCtrl_reply (v : Ctrl) : (s.setCtrl v).reply = s.reply := rfl
@[simp] theorem State.setCtrl_draws (v : Ctrl) : (s.setCtrl v).draws = s.draws := rfl
@[simp] theorem State.setCtrl_setCtrl (v v' : Ctrl) : (s.setCtrl v).setCtrl v' = s.setCtrl v' := rfl
@[simp] theorem State.setCtrl_self : s.setCtrl s.ctrl = s := rfl

@[simp] theorem State.setStatus_cfg (v : Status) : (s.setStatus v).cfg = s.cfg := rfl
@[simp] theorem State.setStatus_ctrl (v : Status) : (s.setStatus v).ctrl = s.ctrl := rfl
@[simp] theorem State.setStatus_status (v : Status) : (s.setStatus v).status = v := rfl
@[simp] theorem State.setStatus_errcmd (v : Status) : (s.setStatus v).errcmd = s.errcmd := rfl
@[simp] theorem State.setStatus_lenLo (v : Status) : (s.setStatus v).lenLo = s.lenLo := rfl
@[simp] theorem State.setStatus_lenHi (v : Status) : (s.setStatus v).lenHi = s.lenHi := rfl
@[simp] theorem State.setStatus_plen (v : Status) : (s.setStatus v).plen = s.plen := rfl
@[simp] theorem State.setStatus_rcnt (v : Status) : (s.setStatus v).rcnt = s.rcnt := rfl
@[simp] theorem State.setStatus_h (v : Status) : (s.setStatus v).h = s.h := rfl
@[simp] theorem State.setStatus_wk (v : Status) : (s.setStatus v).wk = s.wk := rfl
@[simp] theorem State.setStatus_w (v : Status) : (s.setStatus v).w = s.w := rfl
@[simp] theorem State.setStatus_hex (v : Status) : (s.setStatus v).hex = s.hex := rfl
@[simp] theorem State.setStatus_mem (v : Status) : (s.setStatus v).mem = s.mem := rfl
@[simp] theorem State.setStatus_pending (v : Status) : (s.setStatus v).pending = s.pending := rfl
@[simp] theorem State.setStatus_irq (v : Status) : (s.setStatus v).irq = s.irq := rfl
@[simp] theorem State.setStatus_agenda (v : Status) : (s.setStatus v).agenda = s.agenda := rfl
@[simp] theorem State.setStatus_reply (v : Status) : (s.setStatus v).reply = s.reply := rfl
@[simp] theorem State.setStatus_draws (v : Status) : (s.setStatus v).draws = s.draws := rfl
@[simp] theorem State.setStatus_setStatus (v v' : Status) : (s.setStatus v).setStatus v' = s.setStatus v' := rfl
@[simp] theorem State.setStatus_self : s.setStatus s.status = s := rfl

@[simp] theorem State.setErrcmd_cfg (v : Word) : (s.setErrcmd v).cfg = s.cfg := rfl
@[simp] theorem State.setErrcmd_ctrl (v : Word) : (s.setErrcmd v).ctrl = s.ctrl := rfl
@[simp] theorem State.setErrcmd_status (v : Word) : (s.setErrcmd v).status = s.status := rfl
@[simp] theorem State.setErrcmd_errcmd (v : Word) : (s.setErrcmd v).errcmd = v := rfl
@[simp] theorem State.setErrcmd_lenLo (v : Word) : (s.setErrcmd v).lenLo = s.lenLo := rfl
@[simp] theorem State.setErrcmd_lenHi (v : Word) : (s.setErrcmd v).lenHi = s.lenHi := rfl
@[simp] theorem State.setErrcmd_plen (v : Word) : (s.setErrcmd v).plen = s.plen := rfl
@[simp] theorem State.setErrcmd_rcnt (v : Word) : (s.setErrcmd v).rcnt = s.rcnt := rfl
@[simp] theorem State.setErrcmd_h (v : Word) : (s.setErrcmd v).h = s.h := rfl
@[simp] theorem State.setErrcmd_wk (v : Word) : (s.setErrcmd v).wk = s.wk := rfl
@[simp] theorem State.setErrcmd_w (v : Word) : (s.setErrcmd v).w = s.w := rfl
@[simp] theorem State.setErrcmd_hex (v : Word) : (s.setErrcmd v).hex = s.hex := rfl
@[simp] theorem State.setErrcmd_mem (v : Word) : (s.setErrcmd v).mem = s.mem := rfl
@[simp] theorem State.setErrcmd_pending (v : Word) : (s.setErrcmd v).pending = s.pending := rfl
@[simp] theorem State.setErrcmd_irq (v : Word) : (s.setErrcmd v).irq = s.irq := rfl
@[simp] theorem State.setErrcmd_agenda (v : Word) : (s.setErrcmd v).agenda = s.agenda := rfl
@[simp] theorem State.setErrcmd_reply (v : Word) : (s.setErrcmd v).reply = s.reply := rfl
@[simp] theorem State.setErrcmd_draws (v : Word) : (s.setErrcmd v).draws = s.draws := rfl
@[simp] theorem State.setErrcmd_setErrcmd (v v' : Word) : (s.setErrcmd v).setErrcmd v' = s.setErrcmd v' := rfl
@[simp] theorem State.setErrcmd_self : s.setErrcmd s.errcmd = s := rfl

@[simp] theorem State.setLenLo_cfg (v : Word) : (s.setLenLo v).cfg = s.cfg := rfl
@[simp] theorem State.setLenLo_ctrl (v : Word) : (s.setLenLo v).ctrl = s.ctrl := rfl
@[simp] theorem State.setLenLo_status (v : Word) : (s.setLenLo v).status = s.status := rfl
@[simp] theorem State.setLenLo_errcmd (v : Word) : (s.setLenLo v).errcmd = s.errcmd := rfl
@[simp] theorem State.setLenLo_lenLo (v : Word) : (s.setLenLo v).lenLo = v := rfl
@[simp] theorem State.setLenLo_lenHi (v : Word) : (s.setLenLo v).lenHi = s.lenHi := rfl
@[simp] theorem State.setLenLo_plen (v : Word) : (s.setLenLo v).plen = s.plen := rfl
@[simp] theorem State.setLenLo_rcnt (v : Word) : (s.setLenLo v).rcnt = s.rcnt := rfl
@[simp] theorem State.setLenLo_h (v : Word) : (s.setLenLo v).h = s.h := rfl
@[simp] theorem State.setLenLo_wk (v : Word) : (s.setLenLo v).wk = s.wk := rfl
@[simp] theorem State.setLenLo_w (v : Word) : (s.setLenLo v).w = s.w := rfl
@[simp] theorem State.setLenLo_hex (v : Word) : (s.setLenLo v).hex = s.hex := rfl
@[simp] theorem State.setLenLo_mem (v : Word) : (s.setLenLo v).mem = s.mem := rfl
@[simp] theorem State.setLenLo_pending (v : Word) : (s.setLenLo v).pending = s.pending := rfl
@[simp] theorem State.setLenLo_irq (v : Word) : (s.setLenLo v).irq = s.irq := rfl
@[simp] theorem State.setLenLo_agenda (v : Word) : (s.setLenLo v).agenda = s.agenda := rfl
@[simp] theorem State.setLenLo_reply (v : Word) : (s.setLenLo v).reply = s.reply := rfl
@[simp] theorem State.setLenLo_draws (v : Word) : (s.setLenLo v).draws = s.draws := rfl
@[simp] theorem State.setLenLo_setLenLo (v v' : Word) : (s.setLenLo v).setLenLo v' = s.setLenLo v' := rfl
@[simp] theorem State.setLenLo_self : s.setLenLo s.lenLo = s := rfl

@[simp] theorem State.setLenHi_cfg (v : Word) : (s.setLenHi v).cfg = s.cfg := rfl
@[simp] theorem State.setLenHi_ctrl (v : Word) : (s.setLenHi v).ctrl = s.ctrl := rfl
@[simp] theorem State.setLenHi_status (v : Word) : (s.setLenHi v).status = s.status := rfl
@[simp] theorem State.setLenHi_errcmd (v : Word) : (s.setLenHi v).errcmd = s.errcmd := rfl
@[simp] theorem State.setLenHi_lenLo (v : Word) : (s.setLenHi v).lenLo = s.lenLo := rfl
@[simp] theorem State.setLenHi_lenHi (v : Word) : (s.setLenHi v).lenHi = v := rfl
@[simp] theorem State.setLenHi_plen (v : Word) : (s.setLenHi v).plen = s.plen := rfl
@[simp] theorem State.setLenHi_rcnt (v : Word) : (s.setLenHi v).rcnt = s.rcnt := rfl
@[simp] theorem State.setLenHi_h (v : Word) : (s.setLenHi v).h = s.h := rfl
@[simp] theorem State.setLenHi_wk (v : Word) : (s.setLenHi v).wk = s.wk := rfl
@[simp] theorem State.setLenHi_w (v : Word) : (s.setLenHi v).w = s.w := rfl
@[simp] theorem State.setLenHi_hex (v : Word) : (s.setLenHi v).hex = s.hex := rfl
@[simp] theorem State.setLenHi_mem (v : Word) : (s.setLenHi v).mem = s.mem := rfl
@[simp] theorem State.setLenHi_pending (v : Word) : (s.setLenHi v).pending = s.pending := rfl
@[simp] theorem State.setLenHi_irq (v : Word) : (s.setLenHi v).irq = s.irq := rfl
@[simp] theorem State.setLenHi_agenda (v : Word) : (s.setLenHi v).agenda = s.agenda := rfl
@[simp] theorem State.setLenHi_reply (v : Word) : (s.setLenHi v).reply = s.reply := rfl
@[simp] theorem State.setLenHi_draws (v : Word) : (s.setLenHi v).draws = s.draws := rfl
@[simp] theorem State.setLenHi_setLenHi (v v' : Word) : (s.setLenHi v).setLenHi v' = s.setLenHi v' := rfl
@[simp] theorem State.setLenHi_self : s.setLenHi s.lenHi = s := rfl

@[simp] theorem State.setPlen_cfg (v : Word) : (s.setPlen v).cfg = s.cfg := rfl
@[simp] theorem State.setPlen_ctrl (v : Word) : (s.setPlen v).ctrl = s.ctrl := rfl
@[simp] theorem State.setPlen_status (v : Word) : (s.setPlen v).status = s.status := rfl
@[simp] theorem State.setPlen_errcmd (v : Word) : (s.setPlen v).errcmd = s.errcmd := rfl
@[simp] theorem State.setPlen_lenLo (v : Word) : (s.setPlen v).lenLo = s.lenLo := rfl
@[simp] theorem State.setPlen_lenHi (v : Word) : (s.setPlen v).lenHi = s.lenHi := rfl
@[simp] theorem State.setPlen_plen (v : Word) : (s.setPlen v).plen = v := rfl
@[simp] theorem State.setPlen_rcnt (v : Word) : (s.setPlen v).rcnt = s.rcnt := rfl
@[simp] theorem State.setPlen_h (v : Word) : (s.setPlen v).h = s.h := rfl
@[simp] theorem State.setPlen_wk (v : Word) : (s.setPlen v).wk = s.wk := rfl
@[simp] theorem State.setPlen_w (v : Word) : (s.setPlen v).w = s.w := rfl
@[simp] theorem State.setPlen_hex (v : Word) : (s.setPlen v).hex = s.hex := rfl
@[simp] theorem State.setPlen_mem (v : Word) : (s.setPlen v).mem = s.mem := rfl
@[simp] theorem State.setPlen_pending (v : Word) : (s.setPlen v).pending = s.pending := rfl
@[simp] theorem State.setPlen_irq (v : Word) : (s.setPlen v).irq = s.irq := rfl
@[simp] theorem State.setPlen_agenda (v : Word) : (s.setPlen v).agenda = s.agenda := rfl
@[simp] theorem State.setPlen_reply (v : Word) : (s.setPlen v).reply = s.reply := rfl
@[simp] theorem State.setPlen_draws (v : Word) : (s.setPlen v).draws = s.draws := rfl
@[simp] theorem State.setPlen_setPlen (v v' : Word) : (s.setPlen v).setPlen v' = s.setPlen v' := rfl
@[simp] theorem State.setPlen_self : s.setPlen s.plen = s := rfl

@[simp] theorem State.setRcnt_cfg (v : BitVec 7) : (s.setRcnt v).cfg = s.cfg := rfl
@[simp] theorem State.setRcnt_ctrl (v : BitVec 7) : (s.setRcnt v).ctrl = s.ctrl := rfl
@[simp] theorem State.setRcnt_status (v : BitVec 7) : (s.setRcnt v).status = s.status := rfl
@[simp] theorem State.setRcnt_errcmd (v : BitVec 7) : (s.setRcnt v).errcmd = s.errcmd := rfl
@[simp] theorem State.setRcnt_lenLo (v : BitVec 7) : (s.setRcnt v).lenLo = s.lenLo := rfl
@[simp] theorem State.setRcnt_lenHi (v : BitVec 7) : (s.setRcnt v).lenHi = s.lenHi := rfl
@[simp] theorem State.setRcnt_plen (v : BitVec 7) : (s.setRcnt v).plen = s.plen := rfl
@[simp] theorem State.setRcnt_rcnt (v : BitVec 7) : (s.setRcnt v).rcnt = v := rfl
@[simp] theorem State.setRcnt_h (v : BitVec 7) : (s.setRcnt v).h = s.h := rfl
@[simp] theorem State.setRcnt_wk (v : BitVec 7) : (s.setRcnt v).wk = s.wk := rfl
@[simp] theorem State.setRcnt_w (v : BitVec 7) : (s.setRcnt v).w = s.w := rfl
@[simp] theorem State.setRcnt_hex (v : BitVec 7) : (s.setRcnt v).hex = s.hex := rfl
@[simp] theorem State.setRcnt_mem (v : BitVec 7) : (s.setRcnt v).mem = s.mem := rfl
@[simp] theorem State.setRcnt_pending (v : BitVec 7) : (s.setRcnt v).pending = s.pending := rfl
@[simp] theorem State.setRcnt_irq (v : BitVec 7) : (s.setRcnt v).irq = s.irq := rfl
@[simp] theorem State.setRcnt_agenda (v : BitVec 7) : (s.setRcnt v).agenda = s.agenda := rfl
@[simp] theorem State.setRcnt_reply (v : BitVec 7) : (s.setRcnt v).reply = s.reply := rfl
@[simp] theorem State.setRcnt_draws (v : BitVec 7) : (s.setRcnt v).draws = s.draws := rfl
@[simp] theorem State.setRcnt_setRcnt (v v' : BitVec 7) : (s.setRcnt v).setRcnt v' = s.setRcnt v' := rfl
@[simp] theorem State.setRcnt_self : s.setRcnt s.rcnt = s := rfl

@[simp] theorem State.setH_cfg (v : Vector Word 5) : (s.setH v).cfg = s.cfg := rfl
@[simp] theorem State.setH_ctrl (v : Vector Word 5) : (s.setH v).ctrl = s.ctrl := rfl
@[simp] theorem State.setH_status (v : Vector Word 5) : (s.setH v).status = s.status := rfl
@[simp] theorem State.setH_errcmd (v : Vector Word 5) : (s.setH v).errcmd = s.errcmd := rfl
@[simp] theorem State.setH_lenLo (v : Vector Word 5) : (s.setH v).lenLo = s.lenLo := rfl
@[simp] theorem State.setH_lenHi (v : Vector Word 5) : (s.setH v).lenHi = s.lenHi := rfl
@[simp] theorem State.setH_plen (v : Vector Word 5) : (s.setH v).plen = s.plen := rfl
@[simp] theorem State.setH_rcnt (v : Vector Word 5) : (s.setH v).rcnt = s.rcnt := rfl
@[simp] theorem State.setH_h (v : Vector Word 5) : (s.setH v).h = v := rfl
@[simp] theorem State.setH_wk (v : Vector Word 5) : (s.setH v).wk = s.wk := rfl
@[simp] theorem State.setH_w (v : Vector Word 5) : (s.setH v).w = s.w := rfl
@[simp] theorem State.setH_hex (v : Vector Word 5) : (s.setH v).hex = s.hex := rfl
@[simp] theorem State.setH_mem (v : Vector Word 5) : (s.setH v).mem = s.mem := rfl
@[simp] theorem State.setH_pending (v : Vector Word 5) : (s.setH v).pending = s.pending := rfl
@[simp] theorem State.setH_irq (v : Vector Word 5) : (s.setH v).irq = s.irq := rfl
@[simp] theorem State.setH_agenda (v : Vector Word 5) : (s.setH v).agenda = s.agenda := rfl
@[simp] theorem State.setH_reply (v : Vector Word 5) : (s.setH v).reply = s.reply := rfl
@[simp] theorem State.setH_draws (v : Vector Word 5) : (s.setH v).draws = s.draws := rfl
@[simp] theorem State.setH_setH (v v' : Vector Word 5) : (s.setH v).setH v' = s.setH v' := rfl
@[simp] theorem State.setH_self : s.setH s.h = s := rfl

@[simp] theorem State.setWk_cfg (v : Working) : (s.setWk v).cfg = s.cfg := rfl
@[simp] theorem State.setWk_ctrl (v : Working) : (s.setWk v).ctrl = s.ctrl := rfl
@[simp] theorem State.setWk_status (v : Working) : (s.setWk v).status = s.status := rfl
@[simp] theorem State.setWk_errcmd (v : Working) : (s.setWk v).errcmd = s.errcmd := rfl
@[simp] theorem State.setWk_lenLo (v : Working) : (s.setWk v).lenLo = s.lenLo := rfl
@[simp] theorem State.setWk_lenHi (v : Working) : (s.setWk v).lenHi = s.lenHi := rfl
@[simp] theorem State.setWk_plen (v : Working) : (s.setWk v).plen = s.plen := rfl
@[simp] theorem State.setWk_rcnt (v : Working) : (s.setWk v).rcnt = s.rcnt := rfl
@[simp] theorem State.setWk_h (v : Working) : (s.setWk v).h = s.h := rfl
@[simp] theorem State.setWk_wk (v : Working) : (s.setWk v).wk = v := rfl
@[simp] theorem State.setWk_w (v : Working) : (s.setWk v).w = s.w := rfl
@[simp] theorem State.setWk_hex (v : Working) : (s.setWk v).hex = s.hex := rfl
@[simp] theorem State.setWk_mem (v : Working) : (s.setWk v).mem = s.mem := rfl
@[simp] theorem State.setWk_pending (v : Working) : (s.setWk v).pending = s.pending := rfl
@[simp] theorem State.setWk_irq (v : Working) : (s.setWk v).irq = s.irq := rfl
@[simp] theorem State.setWk_agenda (v : Working) : (s.setWk v).agenda = s.agenda := rfl
@[simp] theorem State.setWk_reply (v : Working) : (s.setWk v).reply = s.reply := rfl
@[simp] theorem State.setWk_draws (v : Working) : (s.setWk v).draws = s.draws := rfl
@[simp] theorem State.setWk_setWk (v v' : Working) : (s.setWk v).setWk v' = s.setWk v' := rfl
@[simp] theorem State.setWk_self : s.setWk s.wk = s := rfl

@[simp] theorem State.setWAll_cfg (v : Vector (Elem Word) 80) : (s.setWAll v).cfg = s.cfg := rfl
@[simp] theorem State.setWAll_ctrl (v : Vector (Elem Word) 80) : (s.setWAll v).ctrl = s.ctrl := rfl
@[simp] theorem State.setWAll_status (v : Vector (Elem Word) 80) : (s.setWAll v).status = s.status := rfl
@[simp] theorem State.setWAll_errcmd (v : Vector (Elem Word) 80) : (s.setWAll v).errcmd = s.errcmd := rfl
@[simp] theorem State.setWAll_lenLo (v : Vector (Elem Word) 80) : (s.setWAll v).lenLo = s.lenLo := rfl
@[simp] theorem State.setWAll_lenHi (v : Vector (Elem Word) 80) : (s.setWAll v).lenHi = s.lenHi := rfl
@[simp] theorem State.setWAll_plen (v : Vector (Elem Word) 80) : (s.setWAll v).plen = s.plen := rfl
@[simp] theorem State.setWAll_rcnt (v : Vector (Elem Word) 80) : (s.setWAll v).rcnt = s.rcnt := rfl
@[simp] theorem State.setWAll_h (v : Vector (Elem Word) 80) : (s.setWAll v).h = s.h := rfl
@[simp] theorem State.setWAll_wk (v : Vector (Elem Word) 80) : (s.setWAll v).wk = s.wk := rfl
@[simp] theorem State.setWAll_w (v : Vector (Elem Word) 80) : (s.setWAll v).w = v := rfl
@[simp] theorem State.setWAll_hex (v : Vector (Elem Word) 80) : (s.setWAll v).hex = s.hex := rfl
@[simp] theorem State.setWAll_mem (v : Vector (Elem Word) 80) : (s.setWAll v).mem = s.mem := rfl
@[simp] theorem State.setWAll_pending (v : Vector (Elem Word) 80) : (s.setWAll v).pending = s.pending := rfl
@[simp] theorem State.setWAll_irq (v : Vector (Elem Word) 80) : (s.setWAll v).irq = s.irq := rfl
@[simp] theorem State.setWAll_agenda (v : Vector (Elem Word) 80) : (s.setWAll v).agenda = s.agenda := rfl
@[simp] theorem State.setWAll_reply (v : Vector (Elem Word) 80) : (s.setWAll v).reply = s.reply := rfl
@[simp] theorem State.setWAll_draws (v : Vector (Elem Word) 80) : (s.setWAll v).draws = s.draws := rfl
@[simp] theorem State.setWAll_setWAll (v v' : Vector (Elem Word) 80) : (s.setWAll v).setWAll v' = s.setWAll v' := rfl
@[simp] theorem State.setWAll_self : s.setWAll s.w = s := rfl

@[simp] theorem State.setHex_cfg (v : Vector (Elem Byte) 40) : (s.setHex v).cfg = s.cfg := rfl
@[simp] theorem State.setHex_ctrl (v : Vector (Elem Byte) 40) : (s.setHex v).ctrl = s.ctrl := rfl
@[simp] theorem State.setHex_status (v : Vector (Elem Byte) 40) : (s.setHex v).status = s.status := rfl
@[simp] theorem State.setHex_errcmd (v : Vector (Elem Byte) 40) : (s.setHex v).errcmd = s.errcmd := rfl
@[simp] theorem State.setHex_lenLo (v : Vector (Elem Byte) 40) : (s.setHex v).lenLo = s.lenLo := rfl
@[simp] theorem State.setHex_lenHi (v : Vector (Elem Byte) 40) : (s.setHex v).lenHi = s.lenHi := rfl
@[simp] theorem State.setHex_plen (v : Vector (Elem Byte) 40) : (s.setHex v).plen = s.plen := rfl
@[simp] theorem State.setHex_rcnt (v : Vector (Elem Byte) 40) : (s.setHex v).rcnt = s.rcnt := rfl
@[simp] theorem State.setHex_h (v : Vector (Elem Byte) 40) : (s.setHex v).h = s.h := rfl
@[simp] theorem State.setHex_wk (v : Vector (Elem Byte) 40) : (s.setHex v).wk = s.wk := rfl
@[simp] theorem State.setHex_w (v : Vector (Elem Byte) 40) : (s.setHex v).w = s.w := rfl
@[simp] theorem State.setHex_hex (v : Vector (Elem Byte) 40) : (s.setHex v).hex = v := rfl
@[simp] theorem State.setHex_mem (v : Vector (Elem Byte) 40) : (s.setHex v).mem = s.mem := rfl
@[simp] theorem State.setHex_pending (v : Vector (Elem Byte) 40) : (s.setHex v).pending = s.pending := rfl
@[simp] theorem State.setHex_irq (v : Vector (Elem Byte) 40) : (s.setHex v).irq = s.irq := rfl
@[simp] theorem State.setHex_agenda (v : Vector (Elem Byte) 40) : (s.setHex v).agenda = s.agenda := rfl
@[simp] theorem State.setHex_reply (v : Vector (Elem Byte) 40) : (s.setHex v).reply = s.reply := rfl
@[simp] theorem State.setHex_draws (v : Vector (Elem Byte) 40) : (s.setHex v).draws = s.draws := rfl
@[simp] theorem State.setHex_setHex (v v' : Vector (Elem Byte) 40) : (s.setHex v).setHex v' = s.setHex v' := rfl
@[simp] theorem State.setHex_self : s.setHex s.hex = s := rfl

@[simp] theorem State.setMem_cfg (v : Memory) : (s.setMem v).cfg = s.cfg := rfl
@[simp] theorem State.setMem_ctrl (v : Memory) : (s.setMem v).ctrl = s.ctrl := rfl
@[simp] theorem State.setMem_status (v : Memory) : (s.setMem v).status = s.status := rfl
@[simp] theorem State.setMem_errcmd (v : Memory) : (s.setMem v).errcmd = s.errcmd := rfl
@[simp] theorem State.setMem_lenLo (v : Memory) : (s.setMem v).lenLo = s.lenLo := rfl
@[simp] theorem State.setMem_lenHi (v : Memory) : (s.setMem v).lenHi = s.lenHi := rfl
@[simp] theorem State.setMem_plen (v : Memory) : (s.setMem v).plen = s.plen := rfl
@[simp] theorem State.setMem_rcnt (v : Memory) : (s.setMem v).rcnt = s.rcnt := rfl
@[simp] theorem State.setMem_h (v : Memory) : (s.setMem v).h = s.h := rfl
@[simp] theorem State.setMem_wk (v : Memory) : (s.setMem v).wk = s.wk := rfl
@[simp] theorem State.setMem_w (v : Memory) : (s.setMem v).w = s.w := rfl
@[simp] theorem State.setMem_hex (v : Memory) : (s.setMem v).hex = s.hex := rfl
@[simp] theorem State.setMem_mem (v : Memory) : (s.setMem v).mem = v := rfl
@[simp] theorem State.setMem_pending (v : Memory) : (s.setMem v).pending = s.pending := rfl
@[simp] theorem State.setMem_irq (v : Memory) : (s.setMem v).irq = s.irq := rfl
@[simp] theorem State.setMem_agenda (v : Memory) : (s.setMem v).agenda = s.agenda := rfl
@[simp] theorem State.setMem_reply (v : Memory) : (s.setMem v).reply = s.reply := rfl
@[simp] theorem State.setMem_draws (v : Memory) : (s.setMem v).draws = s.draws := rfl
@[simp] theorem State.setMem_setMem (v v' : Memory) : (s.setMem v).setMem v' = s.setMem v' := rfl
@[simp] theorem State.setMem_self : s.setMem s.mem = s := rfl

@[simp] theorem State.setPending_cfg (v : Option Word) : (s.setPending v).cfg = s.cfg := rfl
@[simp] theorem State.setPending_ctrl (v : Option Word) : (s.setPending v).ctrl = s.ctrl := rfl
@[simp] theorem State.setPending_status (v : Option Word) : (s.setPending v).status = s.status := rfl
@[simp] theorem State.setPending_errcmd (v : Option Word) : (s.setPending v).errcmd = s.errcmd := rfl
@[simp] theorem State.setPending_lenLo (v : Option Word) : (s.setPending v).lenLo = s.lenLo := rfl
@[simp] theorem State.setPending_lenHi (v : Option Word) : (s.setPending v).lenHi = s.lenHi := rfl
@[simp] theorem State.setPending_plen (v : Option Word) : (s.setPending v).plen = s.plen := rfl
@[simp] theorem State.setPending_rcnt (v : Option Word) : (s.setPending v).rcnt = s.rcnt := rfl
@[simp] theorem State.setPending_h (v : Option Word) : (s.setPending v).h = s.h := rfl
@[simp] theorem State.setPending_wk (v : Option Word) : (s.setPending v).wk = s.wk := rfl
@[simp] theorem State.setPending_w (v : Option Word) : (s.setPending v).w = s.w := rfl
@[simp] theorem State.setPending_hex (v : Option Word) : (s.setPending v).hex = s.hex := rfl
@[simp] theorem State.setPending_mem (v : Option Word) : (s.setPending v).mem = s.mem := rfl
@[simp] theorem State.setPending_pending (v : Option Word) : (s.setPending v).pending = v := rfl
@[simp] theorem State.setPending_irq (v : Option Word) : (s.setPending v).irq = s.irq := rfl
@[simp] theorem State.setPending_agenda (v : Option Word) : (s.setPending v).agenda = s.agenda := rfl
@[simp] theorem State.setPending_reply (v : Option Word) : (s.setPending v).reply = s.reply := rfl
@[simp] theorem State.setPending_draws (v : Option Word) : (s.setPending v).draws = s.draws := rfl
@[simp] theorem State.setPending_setPending (v v' : Option Word) : (s.setPending v).setPending v' = s.setPending v' := rfl
@[simp] theorem State.setPending_self : s.setPending s.pending = s := rfl

@[simp] theorem State.setIrq_cfg (v : Bool) : (s.setIrq v).cfg = s.cfg := rfl
@[simp] theorem State.setIrq_ctrl (v : Bool) : (s.setIrq v).ctrl = s.ctrl := rfl
@[simp] theorem State.setIrq_status (v : Bool) : (s.setIrq v).status = s.status := rfl
@[simp] theorem State.setIrq_errcmd (v : Bool) : (s.setIrq v).errcmd = s.errcmd := rfl
@[simp] theorem State.setIrq_lenLo (v : Bool) : (s.setIrq v).lenLo = s.lenLo := rfl
@[simp] theorem State.setIrq_lenHi (v : Bool) : (s.setIrq v).lenHi = s.lenHi := rfl
@[simp] theorem State.setIrq_plen (v : Bool) : (s.setIrq v).plen = s.plen := rfl
@[simp] theorem State.setIrq_rcnt (v : Bool) : (s.setIrq v).rcnt = s.rcnt := rfl
@[simp] theorem State.setIrq_h (v : Bool) : (s.setIrq v).h = s.h := rfl
@[simp] theorem State.setIrq_wk (v : Bool) : (s.setIrq v).wk = s.wk := rfl
@[simp] theorem State.setIrq_w (v : Bool) : (s.setIrq v).w = s.w := rfl
@[simp] theorem State.setIrq_hex (v : Bool) : (s.setIrq v).hex = s.hex := rfl
@[simp] theorem State.setIrq_mem (v : Bool) : (s.setIrq v).mem = s.mem := rfl
@[simp] theorem State.setIrq_pending (v : Bool) : (s.setIrq v).pending = s.pending := rfl
@[simp] theorem State.setIrq_irq (v : Bool) : (s.setIrq v).irq = v := rfl
@[simp] theorem State.setIrq_agenda (v : Bool) : (s.setIrq v).agenda = s.agenda := rfl
@[simp] theorem State.setIrq_reply (v : Bool) : (s.setIrq v).reply = s.reply := rfl
@[simp] theorem State.setIrq_draws (v : Bool) : (s.setIrq v).draws = s.draws := rfl
@[simp] theorem State.setIrq_setIrq (v v' : Bool) : (s.setIrq v).setIrq v' = s.setIrq v' := rfl
@[simp] theorem State.setIrq_self : s.setIrq s.irq = s := rfl

@[simp] theorem State.setAgenda_cfg (v : List Event) : (s.setAgenda v).cfg = s.cfg := rfl
@[simp] theorem State.setAgenda_ctrl (v : List Event) : (s.setAgenda v).ctrl = s.ctrl := rfl
@[simp] theorem State.setAgenda_status (v : List Event) : (s.setAgenda v).status = s.status := rfl
@[simp] theorem State.setAgenda_errcmd (v : List Event) : (s.setAgenda v).errcmd = s.errcmd := rfl
@[simp] theorem State.setAgenda_lenLo (v : List Event) : (s.setAgenda v).lenLo = s.lenLo := rfl
@[simp] theorem State.setAgenda_lenHi (v : List Event) : (s.setAgenda v).lenHi = s.lenHi := rfl
@[simp] theorem State.setAgenda_plen (v : List Event) : (s.setAgenda v).plen = s.plen := rfl
@[simp] theorem State.setAgenda_rcnt (v : List Event) : (s.setAgenda v).rcnt = s.rcnt := rfl
@[simp] theorem State.setAgenda_h (v : List Event) : (s.setAgenda v).h = s.h := rfl
@[simp] theorem State.setAgenda_wk (v : List Event) : (s.setAgenda v).wk = s.wk := rfl
@[simp] theorem State.setAgenda_w (v : List Event) : (s.setAgenda v).w = s.w := rfl
@[simp] theorem State.setAgenda_hex (v : List Event) : (s.setAgenda v).hex = s.hex := rfl
@[simp] theorem State.setAgenda_mem (v : List Event) : (s.setAgenda v).mem = s.mem := rfl
@[simp] theorem State.setAgenda_pending (v : List Event) : (s.setAgenda v).pending = s.pending := rfl
@[simp] theorem State.setAgenda_irq (v : List Event) : (s.setAgenda v).irq = s.irq := rfl
@[simp] theorem State.setAgenda_agenda (v : List Event) : (s.setAgenda v).agenda = v := rfl
@[simp] theorem State.setAgenda_reply (v : List Event) : (s.setAgenda v).reply = s.reply := rfl
@[simp] theorem State.setAgenda_draws (v : List Event) : (s.setAgenda v).draws = s.draws := rfl
@[simp] theorem State.setAgenda_setAgenda (v v' : List Event) : (s.setAgenda v).setAgenda v' = s.setAgenda v' := rfl
@[simp] theorem State.setAgenda_self : s.setAgenda s.agenda = s := rfl

@[simp] theorem State.setReply_cfg (v : Option Reply) : (s.setReply v).cfg = s.cfg := rfl
@[simp] theorem State.setReply_ctrl (v : Option Reply) : (s.setReply v).ctrl = s.ctrl := rfl
@[simp] theorem State.setReply_status (v : Option Reply) : (s.setReply v).status = s.status := rfl
@[simp] theorem State.setReply_errcmd (v : Option Reply) : (s.setReply v).errcmd = s.errcmd := rfl
@[simp] theorem State.setReply_lenLo (v : Option Reply) : (s.setReply v).lenLo = s.lenLo := rfl
@[simp] theorem State.setReply_lenHi (v : Option Reply) : (s.setReply v).lenHi = s.lenHi := rfl
@[simp] theorem State.setReply_plen (v : Option Reply) : (s.setReply v).plen = s.plen := rfl
@[simp] theorem State.setReply_rcnt (v : Option Reply) : (s.setReply v).rcnt = s.rcnt := rfl
@[simp] theorem State.setReply_h (v : Option Reply) : (s.setReply v).h = s.h := rfl
@[simp] theorem State.setReply_wk (v : Option Reply) : (s.setReply v).wk = s.wk := rfl
@[simp] theorem State.setReply_w (v : Option Reply) : (s.setReply v).w = s.w := rfl
@[simp] theorem State.setReply_hex (v : Option Reply) : (s.setReply v).hex = s.hex := rfl
@[simp] theorem State.setReply_mem (v : Option Reply) : (s.setReply v).mem = s.mem := rfl
@[simp] theorem State.setReply_pending (v : Option Reply) : (s.setReply v).pending = s.pending := rfl
@[simp] theorem State.setReply_irq (v : Option Reply) : (s.setReply v).irq = s.irq := rfl
@[simp] theorem State.setReply_agenda (v : Option Reply) : (s.setReply v).agenda = s.agenda := rfl
@[simp] theorem State.setReply_reply (v : Option Reply) : (s.setReply v).reply = v := rfl
@[simp] theorem State.setReply_draws (v : Option Reply) : (s.setReply v).draws = s.draws := rfl
@[simp] theorem State.setReply_setReply (v v' : Option Reply) : (s.setReply v).setReply v' = s.setReply v' := rfl
@[simp] theorem State.setReply_self : s.setReply s.reply = s := rfl

@[simp] theorem State.setDraws_cfg (v : Nat) : (s.setDraws v).cfg = s.cfg := rfl
@[simp] theorem State.setDraws_ctrl (v : Nat) : (s.setDraws v).ctrl = s.ctrl := rfl
@[simp] theorem State.setDraws_status (v : Nat) : (s.setDraws v).status = s.status := rfl
@[simp] theorem State.setDraws_errcmd (v : Nat) : (s.setDraws v).errcmd = s.errcmd := rfl
@[simp] theorem State.setDraws_lenLo (v : Nat) : (s.setDraws v).lenLo = s.lenLo := rfl
@[simp] theorem State.setDraws_lenHi (v : Nat) : (s.setDraws v).lenHi = s.lenHi := rfl
@[simp] theorem State.setDraws_plen (v : Nat) : (s.setDraws v).plen = s.plen := rfl
@[simp] theorem State.setDraws_rcnt (v : Nat) : (s.setDraws v).rcnt = s.rcnt := rfl
@[simp] theorem State.setDraws_h (v : Nat) : (s.setDraws v).h = s.h := rfl
@[simp] theorem State.setDraws_wk (v : Nat) : (s.setDraws v).wk = s.wk := rfl
@[simp] theorem State.setDraws_w (v : Nat) : (s.setDraws v).w = s.w := rfl
@[simp] theorem State.setDraws_hex (v : Nat) : (s.setDraws v).hex = s.hex := rfl
@[simp] theorem State.setDraws_mem (v : Nat) : (s.setDraws v).mem = s.mem := rfl
@[simp] theorem State.setDraws_pending (v : Nat) : (s.setDraws v).pending = s.pending := rfl
@[simp] theorem State.setDraws_irq (v : Nat) : (s.setDraws v).irq = s.irq := rfl
@[simp] theorem State.setDraws_agenda (v : Nat) : (s.setDraws v).agenda = s.agenda := rfl
@[simp] theorem State.setDraws_reply (v : Nat) : (s.setDraws v).reply = s.reply := rfl
@[simp] theorem State.setDraws_draws (v : Nat) : (s.setDraws v).draws = v := rfl
@[simp] theorem State.setDraws_setDraws (v v' : Nat) : (s.setDraws v).setDraws v' = s.setDraws v' := rfl
@[simp] theorem State.setDraws_self : s.setDraws s.draws = s := rfl

/-! ## Recomputing irq (R39) -/

@[simp] theorem State.refreshIrq_cfg : s.refreshIrq.cfg = s.cfg := rfl
@[simp] theorem State.refreshIrq_ctrl : s.refreshIrq.ctrl = s.ctrl := rfl
@[simp] theorem State.refreshIrq_status : s.refreshIrq.status = s.status := rfl
@[simp] theorem State.refreshIrq_errcmd : s.refreshIrq.errcmd = s.errcmd := rfl
@[simp] theorem State.refreshIrq_lenLo : s.refreshIrq.lenLo = s.lenLo := rfl
@[simp] theorem State.refreshIrq_lenHi : s.refreshIrq.lenHi = s.lenHi := rfl
@[simp] theorem State.refreshIrq_plen : s.refreshIrq.plen = s.plen := rfl
@[simp] theorem State.refreshIrq_rcnt : s.refreshIrq.rcnt = s.rcnt := rfl
@[simp] theorem State.refreshIrq_h : s.refreshIrq.h = s.h := rfl
@[simp] theorem State.refreshIrq_wk : s.refreshIrq.wk = s.wk := rfl
@[simp] theorem State.refreshIrq_w : s.refreshIrq.w = s.w := rfl
@[simp] theorem State.refreshIrq_hex : s.refreshIrq.hex = s.hex := rfl
@[simp] theorem State.refreshIrq_mem : s.refreshIrq.mem = s.mem := rfl
@[simp] theorem State.refreshIrq_pending : s.refreshIrq.pending = s.pending := rfl
@[simp] theorem State.refreshIrq_irq : s.refreshIrq.irq = (s.ctrl.ie && s.status.done) := rfl
@[simp] theorem State.refreshIrq_agenda : s.refreshIrq.agenda = s.agenda := rfl
@[simp] theorem State.refreshIrq_reply : s.refreshIrq.reply = s.reply := rfl
@[simp] theorem State.refreshIrq_draws : s.refreshIrq.draws = s.draws := rfl

/-! ## A bus error (R70) -/

@[simp] theorem State.busError_cfg : s.busError.cfg = s.cfg := rfl
@[simp] theorem State.busError_ctrl : s.busError.ctrl = s.ctrl := rfl
@[simp] theorem State.busError_status : s.busError.status = { s.status with buserr := true } := rfl
@[simp] theorem State.busError_errcmd : s.busError.errcmd = s.errcmd := rfl
@[simp] theorem State.busError_lenLo : s.busError.lenLo = s.lenLo := rfl
@[simp] theorem State.busError_lenHi : s.busError.lenHi = s.lenHi := rfl
@[simp] theorem State.busError_plen : s.busError.plen = s.plen := rfl
@[simp] theorem State.busError_rcnt : s.busError.rcnt = s.rcnt := rfl
@[simp] theorem State.busError_h : s.busError.h = s.h := rfl
@[simp] theorem State.busError_wk : s.busError.wk = s.wk := rfl
@[simp] theorem State.busError_w : s.busError.w = s.w := rfl
@[simp] theorem State.busError_hex : s.busError.hex = s.hex := rfl
@[simp] theorem State.busError_mem : s.busError.mem = s.mem := rfl
@[simp] theorem State.busError_pending : s.busError.pending = s.pending := rfl
@[simp] theorem State.busError_irq : s.busError.irq = s.irq := rfl
@[simp] theorem State.busError_agenda : s.busError.agenda = s.agenda := rfl
@[simp] theorem State.busError_reply : s.busError.reply = s.reply := rfl
@[simp] theorem State.busError_draws : s.busError.draws = s.draws := rfl

end Sys2Proof.Machine
end

