-- ==== Sys2Proof/Laws/Memory.lean ====
section
/-! SUPPORT. The laws of the message buffer: read after write, every other byte left alone, and the canonical form
kept by every operation. -/

namespace Sys2Proof.Machine

@[simp] theorem Memory.find_nil (o : Nat) : Memory.find [] o = .unwritten := rfl

/-- A byte whose index is below every listed one is unwritten. -/
theorem Memory.find_of_lt {m : Memory} {o : Nat} (h : ∀ c ∈ m, o < c.1) : m.find o = .unwritten := by
  induction m with
  | nil => rfl
  | cons c m ih =>
    have hc := h c (by simp)
    simp only [Memory.find]
    rw [if_neg (by omega)]
    exact ih fun d hd => h d (by simp [hd])

/-- Read after write, at the same index and at any other. -/
theorem Memory.find_write (m : Memory) (o : Nat) (v : Byte) (x : Nat) :
    (m.write o v).find x = if x = o then .written v else m.find x := by
  induction m with
  | nil =>
    by_cases h : x = o
    · simp [Memory.write, Memory.find, h]
    · simp [Memory.write, Memory.find, h, Ne.symm h]
  | cons c m ih =>
    obtain ⟨a, y⟩ := c
    simp only [Memory.write]
    split
    · by_cases h : x = o
      · simp [Memory.find, h]
      · simp [Memory.find, h, Ne.symm h]
    · split
      · rename_i _ heq
        by_cases h : x = a
        · simp [Memory.find, h, heq]
        · simp [Memory.find, h, heq, Ne.symm h]
      · simp only [Memory.find, ih]
        split
        · rw [if_neg (by omega)]
        · rfl

/-- A stored run of bytes reads back; every other byte is left alone. -/
theorem Memory.find_store (m : Memory) (o : Nat) (vs : List Byte) (x : Nat) :
    (m.store o vs).find x = if h : o ≤ x ∧ x < o + vs.length then .written vs[x - o] else m.find x := by
  induction vs generalizing m o with
  | nil => simp [Memory.store]
  | cons v vs ih =>
    simp only [Memory.store, ih, Memory.find_write, List.length_cons]
    by_cases h1 : x = o
    · subst h1; simp
    · by_cases h2 : o + 1 ≤ x ∧ x < o + 1 + vs.length
      · have e : x - o = (x - (o + 1)) + 1 := by omega
        rw [dif_pos h2, dif_pos (by omega)]
        simp [e]
      · rw [dif_neg h2, if_neg h1, dif_neg (by omega)]

/-- A write lists the index written and otherwise only indices listed before. -/
theorem Memory.mem_write {m : Memory} {o : Nat} {v : Byte} {c : Host.Cell} (h : c ∈ m.write o v) :
    c.1 = o ∨ c ∈ m := by
  induction m with
  | nil => simp [Memory.write] at h; simp [h]
  | cons d m ih =>
    obtain ⟨a, y⟩ := d
    simp only [Memory.write] at h
    split at h
    · simp only [List.mem_cons] at h ⊢
      rcases h with rfl | h
      · exact .inl rfl
      · exact .inr h
    · split at h
      · simp only [List.mem_cons] at h ⊢
        rcases h with rfl | h
        · exact .inl rfl
        · exact .inr (.inr h)
      · simp only [List.mem_cons] at h ⊢
        rcases h with h | h
        · exact .inr (.inl h)
        · exact (ih h).imp id .inr

/-- A write keeps the canonical form. -/
theorem Memory.wf_write {m : Memory} (h : m.wf) (o : Nat) (v : Byte) : (m.write o v).wf := by
  induction m with
  | nil => simp [Memory.write]
  | cons d m ih =>
    obtain ⟨a, y⟩ := d
    have hd := List.pairwise_cons.mp h
    simp only [Memory.write]
    split
    · rename_i hlt
      refine List.pairwise_cons.mpr ⟨fun c hc => ?_, h⟩
      rcases List.mem_cons.mp hc with rfl | hc
      · exact hlt
      · exact Nat.lt_trans hlt (hd.1 c hc)
    · split
      · subst_vars
        exact List.pairwise_cons.mpr ⟨hd.1, hd.2⟩
      · refine List.pairwise_cons.mpr ⟨fun c hc => ?_, ih hd.2⟩
        rcases Memory.mem_write hc with hc | hc
        · show a < c.1
          omega
        · exact hd.1 c hc

/-- A stored run keeps the canonical form. -/
theorem Memory.wf_store {m : Memory} (h : m.wf) (o : Nat) (vs : List Byte) : (m.store o vs).wf := by
  induction vs generalizing m o with
  | nil => exact h
  | cons v vs ih => exact ih (Memory.wf_write h o v) (o + 1)

/-- A stored run lists no index outside itself that was not listed before. -/
theorem Memory.mem_store {m : Memory} {o : Nat} {vs : List Byte} {c : Host.Cell} (h : c ∈ m.store o vs) :
    (o ≤ c.1 ∧ c.1 < o + vs.length) ∨ c ∈ m := by
  induction vs generalizing m o with
  | nil => exact .inr h
  | cons v vs ih =>
    rcases ih h with hr | hr
    · left; simp only [List.length_cons]; omega
    · rcases Memory.mem_write hr with hw | hw
      · left; simp only [List.length_cons]; omega
      · exact .inr hw

/-- Canonical memories that read alike everywhere are equal. -/
theorem Memory.ext_find {m n : Memory} (hm : m.wf) (hn : n.wf) (h : ∀ o, m.find o = n.find o) : m = n := by
  induction m generalizing n with
  | nil =>
    cases n with
    | nil => rfl
    | cons d n =>
      have := h d.1
      simp [Memory.find] at this
  | cons c m ih =>
    obtain ⟨hc, hm'⟩ := List.pairwise_cons.mp hm
    cases n with
    | nil =>
      have := h c.1
      simp [Memory.find] at this
    | cons d n =>
      obtain ⟨hd, hn'⟩ := List.pairwise_cons.mp hn
      obtain ⟨a, x⟩ := c
      obtain ⟨b, y⟩ := d
      have hab : a = b := by
        rcases Nat.lt_trichotomy a b with hlt | heq | hgt
        · have := h a
          simp only [Memory.find, if_true] at this
          rw [if_neg (by omega), Memory.find_of_lt (fun c hc => Nat.lt_trans hlt (hd c hc))] at this
          simp at this
        · exact heq
        · have := h b
          simp only [Memory.find, if_true] at this
          rw [if_neg (by omega), Memory.find_of_lt (fun c hc' => Nat.lt_trans hgt (hc c hc'))] at this
          simp at this
      subst hab
      have hxy : x = y := by
        have := h a
        simpa [Memory.find] using this
      subst hxy
      congr 1
      refine ih hm' hn' fun o => ?_
      by_cases ho : a = o
      · subst ho
        rw [Memory.find_of_lt hc, Memory.find_of_lt hd]
      · simpa [Memory.find, ho] using h o

end Sys2Proof.Machine
end

