-- ==== Sys2Proof/Laws/Ops.lean ====
section
/-! SUPPORT. What each shared operation does, said once: reads with free values, completion, `perform`, and that every
command and every step answers a next state. -/

namespace Sys2Proof.Machine

/-! ## Reads -/

/-- What a read of an element gives when the next free value is the n-th (R281). -/
def Elem.value {k : Nat} (x : Elem (BitVec k)) (n : Nat) : BitVec k :=
  match x with
  | .written v => v
  | .unwritten => (Config.draw n).setWidth k

/-- How many free values a read of an element draws (R281). -/
def Elem.cost {α : Type} : Elem α → Nat
  | .written _ => 0
  | .unwritten => 1

@[simp] theorem Elem.value_written {k : Nat} (v : BitVec k) (n : Nat) : (Elem.written v).value n = v := rfl
@[simp] theorem Elem.value_unwritten {k : Nat} (n : Nat) :
    (Elem.unwritten : Elem (BitVec k)).value n = (Config.draw n).setWidth k := rfl
@[simp] theorem Elem.cost_written {α : Type} (v : α) : (Elem.written v).cost = 0 := rfl
@[simp] theorem Elem.cost_unwritten {α : Type} : (Elem.unwritten : Elem α).cost = 1 := rfl

theorem Elem.cost_eq_zero {α : Type} {x : Elem α} (h : x ≠ .unwritten) : x.cost = 0 := by
  cases x with
  | unwritten => exact absurd rfl h
  | written _ => rfl

/-- A read gives the element's value and changes only the count of free values. -/
theorem State.readElem_eq {k : Nat} (x : Elem (BitVec k)) (s : State) :
    s.readElem x = (x.value s.draws, s.setDraws (s.draws + x.cost)) := by
  cases x <;> rfl

/-- A read of four bytes gives them big-endian, each with its own free value. -/
theorem State.readQuad_eq (f : Nat → Elem Byte) (o : Nat) (s : State) :
    s.readQuad f o =
      (ofBytes ((f o).value s.draws) ((f (o + 1)).value (s.draws + (f o).cost))
        ((f (o + 2)).value (s.draws + (f o).cost + (f (o + 1)).cost))
        ((f (o + 3)).value (s.draws + (f o).cost + (f (o + 1)).cost + (f (o + 2)).cost)),
       s.setDraws (s.draws + (f o).cost + (f (o + 1)).cost + (f (o + 2)).cost + (f (o + 3)).cost)) := by
  simp [State.readQuad, State.readElem_eq]

/-- Byte j of a big-endian word is the j-th byte. -/
theorem wordByte_ofBytes (b0 b1 b2 b3 : Byte) :
    wordByte (ofBytes b0 b1 b2 b3) 0 = b0 ∧ wordByte (ofBytes b0 b1 b2 b3) 1 = b1 ∧
    wordByte (ofBytes b0 b1 b2 b3) 2 = b2 ∧ wordByte (ofBytes b0 b1 b2 b3) 3 = b3 := by
  unfold wordByte ofBytes
  refine ⟨?_, ?_, ?_, ?_⟩ <;>
  · apply BitVec.eq_of_getLsbD_eq
    intro i hi
    simp only [BitVec.getLsbD_extractLsb', BitVec.getLsbD_append, hi, decide_true, Bool.true_and]
    repeat' split
    all_goals first
      | omega
      | (congr 1; omega)

/-- rotl is the rotation over 32 bits (R14). -/
theorem rotl_eq_rotateLeft (x : Word) {n : Nat} (h : n < 32) : rotl x n = x.rotateLeft n := by
  rw [rotl, BitVec.rotateLeft, BitVec.rotateLeftAux, Nat.mod_eq_of_lt h]

/-! ## Elements of W and HEX -/

theorem State.wElem_eq (s : State) {i : Nat} (h : i < 80) : s.wElem i = s.w[i] := by
  simp [State.wElem, h]

theorem State.wElem_of_ge (s : State) {i : Nat} (h : 80 ≤ i) : s.wElem i = .unwritten := by
  simp [State.wElem, h]

theorem State.hexElem_eq (s : State) {j : Nat} (h : j < 40) : s.hexElem j = s.hex[j] := by
  simp [State.hexElem, h]

@[simp] theorem State.wElem_setWAll (s : State) (v : Vector (Elem Word) 80) (i : Nat) :
    (s.setWAll v).wElem i = v[i]?.getD .unwritten := rfl

/-- A write of W[t] reads back, and leaves every other word alone. -/
theorem State.wElem_writeW (s : State) (t : Nat) (v : Word) (i : Nat) :
    (s.writeW t v).wElem i = if i = t ∧ t < 80 then .written v else s.wElem i := by
  simp only [State.writeW, State.wElem_setWAll, Vector.getElem?_setIfInBounds]
  by_cases h : t = i
  · subst h
    by_cases h8 : t < 80 <;> simp [h8, State.wElem]
  · simp [h, Ne.symm h, State.wElem]

@[simp] theorem State.wElem_setDraws (s : State) (n i : Nat) : (s.setDraws n).wElem i = s.wElem i := rfl

/-! ## The ends of a step -/

@[simp] theorem irqLevel_completed (c : Ctrl) (t : Status) (r : Option CmdError) :
    Sys2Proof.Machine.irqLevel c (t.completed r) = c.ie := by
  simp [Sys2Proof.Machine.irqLevel, Status.completed]

/-- Completion as one record: what R242 writes, and nothing else. -/
theorem State.complete_eq (cmd : Word) (r : Option CmdError) (s : State) :
    s.complete cmd r = { s with
      pending := none
      status := s.status.completed r
      errcmd := if r.isSome then cmd else s.errcmd
      irq := s.ctrl.ie } := by
  simp only [State.complete, State.refreshIrq, State.setErrcmd_ctrl, State.setStatus_ctrl, State.setPending_ctrl,
    State.setErrcmd_status, State.setStatus_status, irqLevel_completed]
  rfl

theorem Status.completed_none (t : Status) : t.completed none = t.succeeded := by
  simp [Status.completed, Status.succeeded, resultCode]

theorem Status.completed_some (t : Status) (e : CmdError) :
    t.completed (some e) = { t with busy := false, done := true, err := true, errcode := e.code } := by
  simp [Status.completed, resultCode]

/-- What an error leaves: the state before the command with the completion fields (R243). -/
theorem raiseError_eq (cmd : Word) (e : CmdError) (s : State) :
    raiseError cmd e s = .next { s with
      pending := none
      status := { s.status with busy := false, done := true, err := true, errcode := e.code }
      errcmd := cmd
      irq := s.ctrl.ie } := by
  simp [raiseError, State.complete_eq, Status.completed_some]

/-- What a success leaves: the command's effect with the completion fields (R242). -/
theorem perform_ok (cmd : Word) (t s : State) :
    perform cmd (.ok t) s = .next { t with
      pending := none, status := t.status.succeeded, irq := t.ctrl.ie } := by
  simp [perform, State.complete_eq, Status.completed_none]

theorem perform_error (cmd : Word) (e : CmdError) (s : State) : perform cmd (.error e) s = raiseError cmd e s := rfl

/-- `perform` always answers: the error's completion or the effect's. -/
theorem perform_cases (cmd : Word) (r : Except CmdError State) (s : State) :
    (∃ e, r = .error e ∧ perform cmd r s = .next (s.complete cmd (some e))) ∨
    (∃ t, r = .ok t ∧ perform cmd r s = .next (t.complete cmd none)) := by
  cases r with
  | error e => exact .inl ⟨e, rfl, rfl⟩
  | ok t => exact .inr ⟨t, rfl, rfl⟩

/-- The checks and effect of each command, before completion (R105). -/
def Instr.body : Instr → State → Except CmdError State
  | .nop, s => .ok s
  | .init, s => .ok (initEffect s)
  | .pad, s => padBody s
  | .sched b, s => schedBody b s
  | .expand, s => .ok (expandEffect s)
  | .loadw, s => .ok (loadwEffect s)
  | .round, s => roundBody s
  | .feedfwd, s => feedfwdBody s
  | .compress, s => .ok (compressEffect s)
  | .encode, s => .ok (encodeEffect s)
  | .hash, s => hashBody s

/-- Every command is `perform` of its own word and body. -/
theorem exec_eq (i : Instr) (s : State) : exec i s = perform (encode i) (Instr.body i s) s := by
  cases i <;> rfl

/-- A command answers exactly one of its error's completion and its effect's. -/
theorem exec_cases (i : Instr) (s : State) :
    (∃ e, Instr.body i s = .error e ∧ exec i s = .next (s.complete (encode i) (some e))) ∨
    (∃ t, Instr.body i s = .ok t ∧ exec i s = .next (t.complete (encode i) none)) := by
  rw [exec_eq]; exact perform_cases _ _ _

theorem exec_of_ok {i : Instr} {s t : State} (h : Instr.body i s = .ok t) :
    exec i s = .next { t with pending := none, status := t.status.succeeded, irq := t.ctrl.ie } := by
  rw [exec_eq, h, perform_ok]

theorem exec_of_error {i : Instr} {s : State} {e : CmdError} (h : Instr.body i s = .error e) :
    exec i s = .next { s with
      pending := none
      status := { s.status with busy := false, done := true, err := true, errcode := e.code }
      errcmd := encode i
      irq := s.ctrl.ie } := by
  rw [exec_eq, h, perform_error, raiseError_eq]

end Sys2Proof.Machine
end

