-- ==== Sys2Proof/Laws/Compressor.lean ====
section
/-! SUPPORT. What the rounds do, said once: one round, then k rounds from RCNT = 0. -/

namespace Sys2Proof.Machine

/-- The schedule word the next round reads: W[RCNT], a free value where it is unwritten (R176, R281). -/
def roundWord (s : State) : Word := (s.wElem s.rcnt.toNat).value s.draws

/-- One round changes A..E, RCNT and the count of free values (R176). -/
theorem roundEffect_eq (s : State) :
    roundEffect s = { s with
      wk := roundStep s.rcnt.toNat (roundWord s) s.wk
      rcnt := s.rcnt + 1
      draws := s.draws + (s.wElem s.rcnt.toNat).cost } := by
  rw [roundEffect, State.readW, State.readElem_eq]
  rfl

/-- Rounds never touch W. -/
@[simp] theorem wElem_roundEffect (s : State) (i : Nat) : (roundEffect s).wElem i = s.wElem i := by
  rw [roundEffect_eq]; rfl

theorem roundEffect_iterate_succ (k : Nat) (s : State) :
    roundEffect^[k + 1] s = roundEffect (roundEffect^[k] s) := Function.iterate_succ_apply' _ _ _

@[simp] theorem wElem_rounds (k : Nat) (s : State) (i : Nat) : (roundEffect^[k] s).wElem i = s.wElem i := by
  induction k with
  | zero => rfl
  | succ k ih => rw [roundEffect_iterate_succ, wElem_roundEffect, ih]

/-- The word round i reads in a run of rounds from s. -/
def roundWordAt (s : State) (i : Nat) : Word := (s.wElem i).value (roundEffect^[i] s).draws

/-- k rounds from RCNT = 0: the working registers of the first k rounds, RCNT = k, nothing else but free values. -/
theorem rounds_eq (k : Nat) (hk : k ≤ 80) (s : State) (h0 : s.rcnt = 0) :
    roundEffect^[k] s = { s with
      wk := (List.range k).foldl (fun x t => roundStep t (roundWordAt s t) x) s.wk
      rcnt := BitVec.ofNat 7 k
      draws := (roundEffect^[k] s).draws } := by
  induction k with
  | zero => cases s; simp at h0 ⊢; exact h0
  | succ k ih =>
    have ih := ih (by omega)
    have hr : (roundEffect^[k] s).rcnt.toNat = k := by
      rw [ih]; simp; omega
    have hw : roundWord (roundEffect^[k] s) = roundWordAt s k := by
      rw [roundWord, hr, wElem_rounds]; rfl
    rw [roundEffect_iterate_succ, roundEffect_eq, hr, hw, List.range_succ, List.foldl_append]
    rw [ih]
    simp [BitVec.ofNat_add]

/-- With W written, rounds draw no free value. -/
theorem draws_rounds (k : Nat) (hk : k ≤ 80) (s : State) (h0 : s.rcnt = 0)
    (hw : ∀ i, i < 80 → s.wElem i ≠ .unwritten) : (roundEffect^[k] s).draws = s.draws := by
  induction k with
  | zero => rfl
  | succ k ih =>
    have hr : (roundEffect^[k] s).rcnt.toNat = k := by
      rw [rounds_eq k (by omega) s h0]; simp; omega
    rw [roundEffect_iterate_succ, roundEffect_eq]
    simp [hr, ih (by omega), Elem.cost_eq_zero (hw k (by omega))]

/-- FEEDFWD's effect as one record (R177). -/
theorem feedfwdEffect_eq (s : State) :
    feedfwdEffect s = { s with
      h := addDigest s.h s.wk, wk := Working.ofVec (addDigest s.h s.wk), rcnt := 0 } := rfl

/-- FEEDFWD after any run that changed only A..E, RCNT and the count of free values. -/
theorem feedfwdEffect_after (s t : State) (x : Working) (n : BitVec 7)
    (h : t = { s with wk := x, rcnt := n, draws := t.draws }) :
    feedfwdEffect t = { s with
      h := addDigest s.h x, wk := Working.ofVec (addDigest s.h x), rcnt := 0, draws := t.draws } := by
  rw [feedfwdEffect_eq]
  generalize t.draws = d at h ⊢
  subst h
  rfl

/-- What a run of rounds from LOADW leaves, all but A..E, RCNT and the count of free values as in s. -/
theorem rounds_loadw (k : Nat) (hk : k ≤ 80) (s : State) :
    roundEffect^[k] (loadwEffect s) = { s with
      wk := (List.range k).foldl (fun x t => roundStep t (roundWordAt (loadwEffect s) t) x) (Working.ofVec s.h)
      rcnt := BitVec.ofNat 7 k
      draws := (roundEffect^[k] (loadwEffect s)).draws } :=
  rounds_eq k hk (loadwEffect s) rfl

/-- COMPRESS: S + Rounds80(S, W), RCNT 0, and nothing else but free values (R178, R179). -/
theorem compressEffect_eq (s : State) :
    compressEffect s = { s with
      h := addDigest s.h (rounds80 (roundWordAt (loadwEffect s)) (Working.ofVec s.h))
      wk := Working.ofVec (addDigest s.h (rounds80 (roundWordAt (loadwEffect s)) (Working.ofVec s.h)))
      rcnt := 0
      draws := (roundEffect^[80] (loadwEffect s)).draws } :=
  feedfwdEffect_after s _ _ _ (rounds_loadw 80 (Nat.le_refl 80) s)

@[simp] theorem wElem_compressEffect (s : State) (i : Nat) : (compressEffect s).wElem i = s.wElem i := by
  simp only [State.wElem, compressEffect_eq]

/-- The stage of a round below 80 is its 20-round band (R173). -/
theorem stageOf_eq {t : Nat} (h : t < 80) :
    stageOf t = if t < 20 then 0 else if t < 40 then 1 else if t < 60 then 2 else 3 := by
  unfold stageOf
  split
  · rw [Nat.div_eq_of_lt ‹_›]; rfl
  · split
    · rw [show t / 20 = 1 by omega]; rfl
    · split
      · rw [show t / 20 = 2 by omega]; rfl
      · rw [show t / 20 = 3 by omega]; rfl

end Sys2Proof.Machine
end

