-- ==== Sys2Proof/Laws/Decode.lean ====
section
/-! SUPPORT. The two fields of a command word as numbers, and decode as a table over them. -/

namespace Sys2Proof

theorem toNat_opcodeField (cmd : Word) : (opcodeField cmd).toNat = cmd.toNat % 256 := by
  simp [opcodeField, BitVec.extractLsb'_toNat]

theorem toNat_imm24Field (cmd : Word) : (imm24Field cmd).toNat = cmd.toNat / 256 := by
  have := cmd.isLt
  simp only [imm24Field, BitVec.extractLsb'_toNat, Nat.shiftRight_eq_div_pow]
  omega

theorem imm24Field_ne_zero (cmd : Word) : imm24Field cmd ≠ 0 ↔ cmd.toNat / 256 ≠ 0 := by
  rw [Ne, ← BitVec.toNat_inj, toNat_imm24Field]; rfl

/-- A word is its two fields (R100). -/
theorem toNat_append_fields (imm : BitVec 24) (op : BitVec 8) :
    (imm ++ op : Word).toNat = imm.toNat * 256 + op.toNat := by
  rw [BitVec.toNat_append, ← Nat.shiftLeft_add_eq_or_of_lt (by simpa using op.isLt), Nat.shiftLeft_eq]

/-- The commands without an operand, by opcode (R102). -/
def plainRow : Nat → Option Instr
  | 0x00 => some .nop
  | 0x01 => some .init
  | 0x02 => some .pad
  | 0x04 => some .expand
  | 0x05 => some .loadw
  | 0x06 => some .round
  | 0x07 => some .feedfwd
  | 0x08 => some .compress
  | 0x09 => some .encode
  | 0x0A => some .hash
  | _ => none

/-- decode over the two fields as numbers (R106). -/
theorem decode_eq (cmd : Word) :
    decode cmd =
      if 0x0A < cmd.toNat % 256 then .error .illegalOpcode
      else if cmd.toNat % 256 = 0x03 then .ok (.sched (cmd.toNat / 256))
      else if cmd.toNat / 256 ≠ 0 then .error .badOperand
      else match plainRow (cmd.toNat % 256) with
        | some i => .ok i
        | none => .error .illegalOpcode := by
  have hi : (imm24Field cmd = 0#24) ↔ cmd.toNat / 256 = 0 := not_iff_not.mp (imm24Field_ne_zero cmd)
  unfold decode opcodeRow
  rw [toNat_opcodeField, toNat_imm24Field]
  have hlt : cmd.toNat % 256 < 256 := Nat.mod_lt _ (by decide)
  generalize cmd.toNat % 256 = op at *
  by_cases h : 0x0A < op
  · rw [if_pos h]
    split <;> first | omega | rfl | skip
    split at * <;> simp_all
  · rw [if_neg h]
    have : op = 0 ∨ op = 1 ∨ op = 2 ∨ op = 3 ∨ op = 4 ∨ op = 5 ∨ op = 6 ∨ op = 7 ∨ op = 8 ∨ op = 9 ∨ op = 10 := by omega
    rcases this with rfl | rfl | rfl | rfl | rfl | rfl | rfl | rfl | rfl | rfl | rfl <;>
      by_cases hz : cmd.toNat / 256 = 0 <;> simp [Instr.takesOperand, plainRow, hi, hz]

theorem opcode_le (i : Instr) : i.opcode.toNat ≤ 0x0A := by cases i <;> simp [Instr.opcode]

/-- The number a command is encoded as (R108). -/
theorem toNat_encode (i : Instr) : (encode i).toNat = i.imm24.toNat * 256 + i.opcode.toNat :=
  toNat_append_fields _ _

end Sys2Proof
end

