-- ==== Sys2Proof/Laws/Padder.lean ====
section
/-! SUPPORT. What PAD does, said once: the padded length, when it fits, and the bytes of M after it. -/

namespace Sys2Proof.Machine

theorem length_bigEndian8 (v : BitVec 64) : (bigEndian8 v).length = 8 := by simp [bigEndian8]

theorem getElem_bigEndian8 (v : BitVec 64) {j : Nat} (h : j < 8) :
    (bigEndian8 v)[j]'(by simp [bigEndian8, h]) = v.extractLsb' (56 - 8 * j) 8 := by simp [bigEndian8]

theorem padLength_bounds (L : Nat) : L + 9 ≤ padLength L ∧ padLength L ≤ L + 72 ∧ padLength L % 64 = 0 := by
  unfold padLength; omega

/-- LEN as a number: LEN_HI * 2^32 + LEN_LO (R28). -/
theorem State.len_toNat (s : State) : s.len.toNat = s.lenHi.toNat * 2 ^ 32 + s.lenLo.toNat := by
  rw [State.len, BitVec.toNat_append, ← Nat.shiftLeft_add_eq_or_of_lt (by simpa using s.lenLo.isLt), Nat.shiftLeft_eq]

/-- PAD's checks: success exactly when LEN is below 2^61 and the padded length fits (R131). -/
theorem padBody_ok {s : State} (h : s.PadFits) : padBody s = .ok (padEffect s) := by
  obtain ⟨h1, h2⟩ := h
  have : ¬ s.cfg.bufBytes < padLength s.len.toNat := by
    simp only [Config.bufBytes, padLength]; omega
  rw [padBody, if_neg (by omega), if_neg this]

theorem padBody_cases (s : State) :
    (2 ^ 61 ≤ s.len.toNat ∧ padBody s = .error .lenOverflow) ∨
    (s.len.toNat < 2 ^ 61 ∧ s.cfg.bufBytes < padLength s.len.toNat ∧ padBody s = .error .capacity) ∨
    (s.PadFits ∧ padBody s = .ok (padEffect s)) := by
  by_cases h1 : 2 ^ 61 ≤ s.len.toNat
  · exact .inl ⟨h1, by rw [padBody, if_pos h1]⟩
  · by_cases h2 : s.cfg.bufBytes < padLength s.len.toNat
    · exact .inr (.inl ⟨by omega, h2, by rw [padBody, if_neg h1, if_pos h2]⟩)
    · refine .inr (.inr ?_)
      have hf : s.PadFits := by
        refine ⟨by omega, ?_⟩
        simp only [Config.bufBytes, padLength] at h2; omega
      exact ⟨hf, padBody_ok hf⟩

/-- PAD changes only M and PLEN (R131). -/
theorem padEffect_frame (s : State) :
    padEffect s = (s.setMem (padEffect s).mem).setPlen (BitVec.ofNat 32 (padLength s.len.toNat)) := rfl

/-- Every byte of M after PAD (R132). -/
theorem find_padEffect (s : State) (o : Nat) :
    (padEffect s).mem.find o =
      if o < s.len.toNat then s.mem.find o
      else if o = s.len.toNat then .written 0x80
      else if o < padLength s.len.toNat - 8 then .written 0x00
      else if o < padLength s.len.toNat then
        .written ((s.len * 8).extractLsb' (56 - 8 * (o - (padLength s.len.toNat - 8))) 8)
      else s.mem.find o := by
  obtain ⟨hb1, hb2, -⟩ := padLength_bounds s.len.toNat
  simp only [padEffect, State.setPlen_mem, State.setMem_mem, Memory.find_store, Memory.find_write,
    List.length_replicate, length_bigEndian8, List.getElem_replicate]
  generalize hP : padLength s.len.toNat = P at *
  generalize hL : s.len.toNat = L at *
  by_cases h1 : o < L
  · rw [dif_neg (by omega), dif_neg (by omega), if_neg (by omega), if_pos h1]
  · rw [if_neg h1]
    by_cases h2 : o = L
    · rw [dif_neg (by omega), dif_neg (by omega), if_pos h2, if_pos h2]
    · rw [if_neg h2]
      by_cases h3 : o < P - 8
      · rw [dif_neg (by omega), dif_pos (by omega), if_neg h2, if_pos h3]
      · rw [if_neg h3]
        by_cases h4 : o < P
        · rw [dif_pos (by omega), if_neg h2, if_pos h4, getElem_bigEndian8 _ (by omega)]
        · rw [dif_neg (by omega), dif_neg (by omega), if_neg h2, if_neg h4]

/-- PAD keeps M canonical. -/
theorem wf_padEffect {s : State} (h : s.mem.wf) : (padEffect s).mem.wf := by
  simp only [padEffect, State.setPlen_mem, State.setMem_mem]
  exact Memory.wf_store (Memory.wf_store (Memory.wf_write h _ _) _ _) _ _

/-- PAD lists no index from P(LEN) on that was not listed before. -/
theorem mem_padEffect {s : State} {c : Host.Cell} (h : c ∈ (padEffect s).mem) :
    c.1 < padLength s.len.toNat ∨ c ∈ s.mem := by
  obtain ⟨hb1, hb2, -⟩ := padLength_bounds s.len.toNat
  simp only [padEffect, State.setPlen_mem, State.setMem_mem] at h
  rcases Memory.mem_store h with h | h
  · rw [length_bigEndian8] at h; left; omega
  · rcases Memory.mem_store h with h | h
    · rw [List.length_replicate] at h; left; omega
    · rcases Memory.mem_write h with h | h
      · left; omega
      · exact .inr h

end Sys2Proof.Machine
end

