-- ==== Sys2Proof/Laws/Scheduler.lean ====
section
/-! SUPPORT. What the loops of SCHED and EXPAND do, said once: one step, then k steps. -/

namespace Sys2Proof.Machine

/-! ## The expansion (R152) -/

/-- The words one expansion step reads: W[t-3], W[t-8], W[t-14], W[t-16], each unwritten one a free value of its own. -/
def expandRead (s : State) (t d : Nat) : Word :=
  let x (k : Nat) : Elem Word := s.wElem (t - k)
  if d = 3 then (x 3).value s.draws
  else if d = 8 then (x 8).value (s.draws + (x 3).cost)
  else if d = 14 then (x 14).value (s.draws + (x 3).cost + (x 8).cost)
  else (x 16).value (s.draws + (x 3).cost + (x 8).cost + (x 14).cost)

/-- How many free values one expansion step draws. -/
def expandCost (s : State) (t : Nat) : Nat :=
  (s.wElem (t - 3)).cost + (s.wElem (t - 8)).cost + (s.wElem (t - 14)).cost + (s.wElem (t - 16)).cost

/-- The word one expansion step writes (R152). -/
def expandValue (s : State) (t : Nat) : Word :=
  rotl (expandRead s t 3 ^^^ expandRead s t 8 ^^^ expandRead s t 14 ^^^ expandRead s t 16) 1

/-- One expansion step writes W[t] and counts the free values it draws. -/
theorem expandWord_eq (t : Nat) (s : State) :
    expandWord t s = (s.setDraws (s.draws + expandCost s t)).writeW t (expandValue s t) := by
  simp [expandWord, State.readW, State.readElem_eq, expandValue, expandRead, expandCost, Nat.add_assoc]

/-- The state after k expansion steps. -/
def expandSteps (k : Nat) (s : State) : State := (List.range' 16 k).foldl (fun s t => expandWord t s) s

@[simp] theorem expandSteps_zero (s : State) : expandSteps 0 s = s := rfl

theorem expandSteps_succ (k : Nat) (s : State) : expandSteps (k + 1) s = expandWord (16 + k) (expandSteps k s) := by
  simp [expandSteps, List.range'_concat]

theorem expandEffect_eq (s : State) : expandEffect s = expandSteps 64 s := rfl

/-- k expansion steps change only W and the count of free values. -/
theorem expandSteps_frame (k : Nat) (s : State) :
    expandSteps k s = (s.setWAll (expandSteps k s).w).setDraws (expandSteps k s).draws := by
  induction k with
  | zero => rfl
  | succ k ih =>
    rw [expandSteps_succ, expandWord_eq, ih]
    rfl

/-- Step k writes W[16+k] and no other word. -/
theorem wElem_expandSteps_succ (k : Nat) (s : State) (hk : k < 64) (i : Nat) :
    (expandSteps (k + 1) s).wElem i =
      if i = 16 + k then .written (expandValue (expandSteps k s) (16 + k)) else (expandSteps k s).wElem i := by
  rw [expandSteps_succ, expandWord_eq, State.wElem_writeW]
  by_cases h : i = 16 + k
  · rw [if_pos ⟨h, by omega⟩, if_pos h]
  · rw [if_neg (by simp [h]), if_neg h, State.wElem_setDraws]

/-- The words below 16 and those not reached yet are untouched. -/
theorem wElem_expandSteps_of_not {k : Nat} (s : State) (hk : k ≤ 64) {i : Nat} (h : i < 16 ∨ 16 + k ≤ i) :
    (expandSteps k s).wElem i = s.wElem i := by
  induction k with
  | zero => rfl
  | succ k ih =>
    rw [wElem_expandSteps_succ k s (by omega), if_neg (by omega)]
    exact ih (by omega) (by omega)

/-- A word reached holds what its own step wrote. -/
theorem wElem_expandSteps {k : Nat} (s : State) (hk : k ≤ 64) {i : Nat} (h16 : 16 ≤ i) (hi : i < 16 + k) :
    (expandSteps k s).wElem i = .written (expandValue (expandSteps (i - 16) s) i) := by
  induction k with
  | zero => omega
  | succ k ih =>
    rw [wElem_expandSteps_succ k s (by omega)]
    split
    · rename_i h
      subst h
      simp
    · exact ih (by omega) (by omega)

/-- With W[0..15] written, the expansion draws no free value. -/
theorem draws_expandSteps {k : Nat} (s : State) (hk : k ≤ 64) (hw : ∀ i, i < 16 → s.wElem i ≠ .unwritten) :
    (expandSteps k s).draws = s.draws := by
  induction k with
  | zero => rfl
  | succ k ih =>
    have hw' : ∀ i, i < 16 + k → (expandSteps k s).wElem i ≠ .unwritten := by
      intro i hi
      by_cases h16 : i < 16
      · rw [wElem_expandSteps_of_not s (by omega) (.inl h16)]; exact hw i h16
      · rw [wElem_expandSteps s (by omega) (by omega) hi]; simp
    have hcost : expandCost (expandSteps k s) (16 + k) = 0 := by
      simp only [expandCost]
      rw [Elem.cost_eq_zero (hw' _ (by omega)), Elem.cost_eq_zero (hw' _ (by omega)),
        Elem.cost_eq_zero (hw' _ (by omega)), Elem.cost_eq_zero (hw' _ (by omega))]
    rw [expandSteps_succ, expandWord_eq]
    simp [State.writeW, hcost, ih (by omega)]

/-! ## The block words (R150) -/

/-- The word one load step writes: BW(b, t), each unwritten byte a free value of its own. -/
def loadValue (s : State) (b t : Nat) : Word := (s.memRead4 (64 * b + 4 * t)).1

/-- How many free values one load step draws. -/
def loadCost (s : State) (b t : Nat) : Nat :=
  let x (k : Nat) : Elem Byte := s.mem.find (64 * b + 4 * t + k)
  (x 0).cost + (x 1).cost + (x 2).cost + (x 3).cost

/-- One load step writes W[t] and counts the free values it draws. -/
theorem loadBlockWord_eq (b t : Nat) (s : State) :
    loadBlockWord b t s = (s.setDraws (s.draws + loadCost s b t)).writeW t (loadValue s b t) := by
  simp [loadBlockWord, State.memRead4, State.readQuad_eq, loadValue, loadCost, Nat.add_assoc]

/-- The state after k load steps. -/
def loadSteps (b k : Nat) (s : State) : State := (List.range k).foldl (fun s t => loadBlockWord b t s) s

@[simp] theorem loadSteps_zero (b : Nat) (s : State) : loadSteps b 0 s = s := rfl

theorem loadSteps_succ (b k : Nat) (s : State) : loadSteps b (k + 1) s = loadBlockWord b k (loadSteps b k s) := by
  simp [loadSteps, List.range_succ]

theorem loadBlock_eq (b : Nat) (s : State) : loadBlock b s = loadSteps b 16 s := rfl

/-- k load steps change only W and the count of free values. -/
theorem loadSteps_frame (b k : Nat) (s : State) :
    loadSteps b k s = (s.setWAll (loadSteps b k s).w).setDraws (loadSteps b k s).draws := by
  induction k with
  | zero => rfl
  | succ k ih =>
    rw [loadSteps_succ, loadBlockWord_eq, ih]
    rfl

@[simp] theorem loadSteps_mem (b k : Nat) (s : State) : (loadSteps b k s).mem = s.mem := by
  rw [loadSteps_frame]; rfl

/-- Load steps write W[0 .. k-1] and no other word. -/
theorem wElem_loadSteps {b k : Nat} (s : State) (hk : k ≤ 80) (i : Nat) :
    (loadSteps b k s).wElem i =
      if i < k then .written (loadValue (loadSteps b i s) b i) else s.wElem i := by
  induction k with
  | zero => simp
  | succ k ih =>
    rw [loadSteps_succ, loadBlockWord_eq, State.wElem_writeW, State.wElem_setDraws, ih (by omega)]
    by_cases h : i = k
    · subst h
      simp [show i < 80 by omega]
    · rw [if_neg (by simp [h])]
      by_cases h2 : i < k
      · rw [if_pos h2, if_pos (by omega)]
      · rw [if_neg h2, if_neg (by omega)]

/-- With the block's bytes written, the load draws no free value. -/
theorem draws_loadSteps {b k : Nat} (s : State) (hk : k ≤ 16)
    (hm : ∀ o, 64 * b ≤ o → o < 64 * b + 64 → s.mem.find o ≠ .unwritten) : (loadSteps b k s).draws = s.draws := by
  induction k with
  | zero => rfl
  | succ k ih =>
    have hcost : loadCost (loadSteps b k s) b k = 0 := by
      simp only [loadCost, loadSteps_mem]
      rw [Elem.cost_eq_zero (hm _ (by omega) (by omega)), Elem.cost_eq_zero (hm _ (by omega) (by omega)),
        Elem.cost_eq_zero (hm _ (by omega) (by omega)), Elem.cost_eq_zero (hm _ (by omega) (by omega))]
    rw [loadSteps_succ, loadBlockWord_eq]
    simp [State.writeW, hcost, ih (by omega)]

/-- Byte j of BW(b, t) is the byte of M where it is written (R150). -/
theorem wordByte_loadValue {s : State} {b t j : Nat} {x : Byte} (hj : j < 4)
    (h : s.mem.find (64 * b + 4 * t + j) = .written x) : wordByte (loadValue s b t) j = x := by
  simp only [loadValue, State.memRead4, State.readQuad_eq]
  have hb := wordByte_ofBytes ((s.mem.find (64 * b + 4 * t)).value s.draws)
    ((s.mem.find (64 * b + 4 * t + 1)).value (s.draws + (s.mem.find (64 * b + 4 * t)).cost))
    ((s.mem.find (64 * b + 4 * t + 2)).value (s.draws + (s.mem.find (64 * b + 4 * t)).cost
      + (s.mem.find (64 * b + 4 * t + 1)).cost))
    ((s.mem.find (64 * b + 4 * t + 3)).value (s.draws + (s.mem.find (64 * b + 4 * t)).cost
      + (s.mem.find (64 * b + 4 * t + 1)).cost + (s.mem.find (64 * b + 4 * t + 2)).cost))
  match j, hj with
  | 0, _ => rw [hb.1]; simp only [Nat.add_zero] at h; rw [h]; rfl
  | 1, _ => rw [hb.2.1, h]; rfl
  | 2, _ => rw [hb.2.2.1, h]; rfl
  | 3, _ => rw [hb.2.2.2, h]; rfl

/-- BW(b, t) of written bytes is their big-endian word (R150). -/
theorem loadValue_written {s : State} {b t : Nat} {x0 x1 x2 x3 : Byte}
    (h0 : s.mem.find (64 * b + 4 * t) = .written x0) (h1 : s.mem.find (64 * b + 4 * t + 1) = .written x1)
    (h2 : s.mem.find (64 * b + 4 * t + 2) = .written x2) (h3 : s.mem.find (64 * b + 4 * t + 3) = .written x3) :
    loadValue s b t = x0 ++ x1 ++ x2 ++ x3 := by
  simp only [loadValue, State.memRead4, State.readQuad_eq, h0, h1, h2, h3, Elem.value_written]
  rfl

/-- SCHED's effect: 16 load steps, then 64 expansion steps; it changes only W and the count of free values. -/
theorem schedEffect_frame (b : Nat) (s : State) :
    schedEffect b s = (s.setWAll (schedEffect b s).w).setDraws (schedEffect b s).draws := by
  rw [schedEffect, expandEffect_eq, loadBlock_eq]
  have h := expandSteps_frame 64 (loadSteps b 16 s)
  have h' := loadSteps_frame b 16 s
  generalize expandSteps 64 (loadSteps b 16 s) = t at h ⊢
  generalize loadSteps b 16 s = u at h h'
  rw [h'] at h
  exact h

theorem expandEffect_frame (s : State) :
    expandEffect s = (s.setWAll (expandEffect s).w).setDraws (expandEffect s).draws :=
  expandSteps_frame 64 s

end Sys2Proof.Machine
end

