-- ==== Sys2Proof/Laws/Step.lean ====
section
/-! SUPPORT. What a command's effect never touches, what each effect may change, and CORE's step as a case split. -/

namespace Sys2Proof.Machine

/-- No command's effect touches the parameters, the control registers, PENDING, irq, or the model's agenda and reply;
only completion does (R242, R243). -/
structure State.SameControl (s t : State) : Prop where
  cfg : t.cfg = s.cfg
  ctrl : t.ctrl = s.ctrl
  status : t.status = s.status
  errcmd : t.errcmd = s.errcmd
  lenLo : t.lenLo = s.lenLo
  lenHi : t.lenHi = s.lenHi
  pending : t.pending = s.pending
  irq : t.irq = s.irq
  agenda : t.agenda = s.agenda
  reply : t.reply = s.reply

theorem State.SameControl.refl (s : State) : s.SameControl s := ⟨rfl, rfl, rfl, rfl, rfl, rfl, rfl, rfl, rfl, rfl⟩

theorem State.SameControl.trans {s t u : State} (h : s.SameControl t) (k : t.SameControl u) : s.SameControl u :=
  ⟨k.cfg.trans h.cfg, k.ctrl.trans h.ctrl, k.status.trans h.status, k.errcmd.trans h.errcmd, k.lenLo.trans h.lenLo,
   k.lenHi.trans h.lenHi, k.pending.trans h.pending, k.irq.trans h.irq, k.agenda.trans h.agenda, k.reply.trans h.reply⟩

theorem State.SameControl.len {s t : State} (h : s.SameControl t) : t.len = s.len := by
  simp [State.len, h.lenLo, h.lenHi]

theorem sameControl_init (s : State) : s.SameControl (initEffect s) := by constructor <;> simp [initEffect]
theorem sameControl_loadw (s : State) : s.SameControl (loadwEffect s) := by constructor <;> simp [loadwEffect]
theorem sameControl_encode (s : State) : s.SameControl (encodeEffect s) := by constructor <;> simp [encodeEffect]
theorem sameControl_pad (s : State) : s.SameControl (padEffect s) := by constructor <;> simp [padEffect]
theorem sameControl_feedfwd (s : State) : s.SameControl (feedfwdEffect s) := by constructor <;> simp [feedfwdEffect]
theorem sameControl_round (s : State) : s.SameControl (roundEffect s) := by
  rw [roundEffect_eq]; constructor <;> simp
theorem sameControl_sched (b : Nat) (s : State) : s.SameControl (schedEffect b s) := by
  rw [schedEffect_frame]; constructor <;> simp
theorem sameControl_expand (s : State) : s.SameControl (expandEffect s) := by
  rw [expandEffect_frame]; constructor <;> simp
theorem sameControl_compress (s : State) : s.SameControl (compressEffect s) := by
  rw [compressEffect_eq]; constructor <;> simp

/-- SCHED and COMPRESS touch neither M nor PLEN nor HEX. -/
theorem hashBlock_frame (s : State) (b : Nat) :
    s.SameControl (hashBlock s b) ∧ (hashBlock s b).mem = s.mem ∧ (hashBlock s b).plen = s.plen ∧
      (hashBlock s b).hex = s.hex ∧ (hashBlock s b).rcnt = 0 := by
  refine ⟨(sameControl_sched b s).trans (sameControl_compress _), ?_⟩
  rw [hashBlock, compressEffect_eq, schedEffect_frame]
  simp

theorem hashBlocks_succ (n : Nat) (s : State) : hashBlocks (n + 1) s = hashBlock (hashBlocks n s) n := by
  simp [hashBlocks, List.range_succ]

theorem hashBlocks_frame (n : Nat) (s : State) :
    s.SameControl (hashBlocks n s) ∧ (hashBlocks n s).mem = s.mem ∧ (hashBlocks n s).plen = s.plen ∧
      (hashBlocks n s).hex = s.hex ∧ (s.rcnt = 0 → (hashBlocks n s).rcnt = 0) := by
  induction n with
  | zero => exact ⟨.refl s, rfl, rfl, rfl, id⟩
  | succ n ih =>
    rw [hashBlocks_succ]
    obtain ⟨h1, h2, h3, h4, h5⟩ := hashBlock_frame (hashBlocks n s) n
    exact ⟨ih.1.trans h1, h2.trans ih.2.1, h3.trans ih.2.2.1, h4.trans ih.2.2.2.1, fun _ => h5⟩

/-- No command's effect touches the control side. -/
theorem body_sameControl {i : Instr} {s t : State} (h : Instr.body i s = .ok t) : s.SameControl t := by
  cases i with
  | nop => simp only [Instr.body, Except.ok.injEq] at h; subst h; exact .refl s
  | init => simp only [Instr.body, Except.ok.injEq] at h; subst h; exact sameControl_init s
  | pad =>
    rcases padBody_cases s with ⟨-, h'⟩ | ⟨-, -, h'⟩ | ⟨-, h'⟩ <;> rw [Instr.body, h'] at h <;> simp only [Except.ok.injEq, reduceCtorEq] at h
    subst h
    exact sameControl_pad s
  | sched b =>
    simp only [Instr.body, schedBody] at h
    split at h <;> simp only [Except.ok.injEq, reduceCtorEq] at h
    subst h
    exact sameControl_sched b s
  | expand => simp only [Instr.body, Except.ok.injEq] at h; subst h; exact sameControl_expand s
  | loadw => simp only [Instr.body, Except.ok.injEq] at h; subst h; exact sameControl_loadw s
  | round =>
    simp only [Instr.body, roundBody] at h
    split at h <;> simp only [Except.ok.injEq, reduceCtorEq] at h
    subst h
    exact sameControl_round s
  | feedfwd =>
    simp only [Instr.body, feedfwdBody] at h
    split at h <;> simp only [Except.ok.injEq, reduceCtorEq] at h
    subst h
    exact sameControl_feedfwd s
  | compress => simp only [Instr.body, Except.ok.injEq] at h; subst h; exact sameControl_compress s
  | encode => simp only [Instr.body, Except.ok.injEq] at h; subst h; exact sameControl_encode s
  | hash =>
    simp only [Instr.body, hashBody] at h
    rcases padBody_cases s with ⟨-, h'⟩ | ⟨-, -, h'⟩ | ⟨-, h'⟩ <;> rw [h'] at h <;> simp only [Except.ok.injEq, reduceCtorEq] at h
    subst h
    exact (((sameControl_pad s).trans (sameControl_init _)).trans (hashBlocks_frame _ _).1).trans (sameControl_encode _)

/-- CORE's step when CORE has the turn. -/
theorem step_core {s : State} (h : s.CoreHasTurn) : step s = coreTurn s.turnTaken := by
  rcases h with h | h
  · cases s; simp at h; subst h; rfl
  · cases s with | mk _ _ _ _ _ _ _ _ _ _ _ _ _ _ _ ag _ _ =>
    cases ag with
    | nil => simp at h
    | cons e r => simp at h; subst h; rfl

/-- CORE's turn: nothing, a decode error, or a command (R105, R106). -/
theorem coreTurn_cases (s : State) :
    (s.pending = none ∧ coreTurn s = .next s) ∨
    (∃ cmd e, s.pending = some cmd ∧ decode cmd = .error e ∧ coreTurn s = .next (s.complete cmd (some e))) ∨
    (∃ cmd i, s.pending = some cmd ∧ decode cmd = .ok i ∧ coreTurn s = exec i s) := by
  simp only [coreTurn, State.fetch]
  cases hp : s.pending with
  | none => exact .inl ⟨rfl, rfl⟩
  | some cmd =>
    cases hd : decode cmd with
    | error e => exact .inr (.inl ⟨cmd, e, rfl, hd, by simp [hd, raiseError]⟩)
    | ok i => exact .inr (.inr ⟨cmd, i, rfl, hd, by simp [hd]⟩)

/-- One step, by what stands first on the agenda: CORE's turn, an access, or reset. -/
theorem step_cases (s : State) :
    (s.CoreHasTurn ∧ step s = coreTurn s.turnTaken) ∨
    (∃ addr sz rest, s.agenda = .read addr sz :: rest ∧ step s = .next ((s.setAgenda rest).hostRead addr sz)) ∨
    (∃ addr sz v rest, s.agenda = .write addr sz v :: rest ∧
      step s = .next ((s.setAgenda rest).hostWrite addr sz v)) ∨
    (∃ rest, s.agenda = .reset :: rest ∧ step s = .next (s.setAgenda rest).applyReset) := by
  cases ha : s.agenda with
  | nil => exact .inl ⟨.inl ha, step_core (.inl ha)⟩
  | cons e rest =>
    cases e with
    | core =>
      have h : s.CoreHasTurn := .inr (by simp [ha])
      exact .inl ⟨h, step_core h⟩
    | read addr sz => exact .inr (.inl ⟨addr, sz, rest, rfl, by simp [step, ha]⟩)
    | write addr sz v => exact .inr (.inr (.inl ⟨addr, sz, v, rest, rfl, by simp [step, ha]⟩))
    | reset => exact .inr (.inr (.inr ⟨rest, rfl, by simp [step, ha]⟩))

/-- A run that takes one step and goes on. -/
theorem core_run_succ {s t : State} (h : step s = .next t) (k : Nat) : core.run (k + 1) s = core.run k t := by
  have e : core.step s = .next t := h
  simp only [Host.Core.run, e]

end Sys2Proof.Machine
end

