-- ==== Sys2Proof/Laws/Bus.lean ====
section
/-! SUPPORT. What an access does, said once: which accesses the map lets through, the three ends of a read and of a
write, and the step that makes one. -/

namespace Sys2Proof.Machine

theorem offsetOf_base {c : Config} {a : Nat} (h : a < 2 ^ 31) : offsetOf c (c.base + a) = some a := by
  rw [offsetOf, if_pos (by omega), Nat.add_sub_cancel_left]

/-- The step that reads at offset a. -/
theorem step_read {s : State} {a : Nat} {sz : Size} {rest : List Event} (h : a < 2 ^ 31)
    (hag : s.agenda = .read (s.cfg.base + a) sz :: rest) :
    step s = .next ((((s.setAgenda rest).busRead a sz).2.refreshIrq).setReply
      (some (.read ((s.setAgenda rest).busRead a sz).1.1 ((s.setAgenda rest).busRead a sz).1.2))) := by
  have ho : offsetOf s.cfg (s.cfg.base + a) = some a := offsetOf_base h
  simp [step, hag, State.hostRead, ho]

/-- The step that writes at offset a. -/
theorem step_write {s : State} {a : Nat} {sz : Size} {v : Word} {rest : List Event} (h : a < 2 ^ 31)
    (hag : s.agenda = .write (s.cfg.base + a) sz v :: rest) :
    step s = .next ((((s.setAgenda rest).busWrite a sz v).2.refreshIrq).setReply
      (some (.write ((s.setAgenda rest).busWrite a sz v).1))) := by
  have ho : offsetOf s.cfg (s.cfg.base + a) = some a := offsetOf_base h
  simp [step, hag, State.hostWrite, ho]

theorem wordRegion_isSome {a : Nat} (h4 : a % 4 = 0) : (wordRegion a).isSome ↔ inWordRegion a := by
  unfold wordRegion inWordRegion
  split
  · have : a = 0 ∨ a = 4 ∨ a = 8 ∨ a = 12 ∨ a = 16 ∨ a = 20 ∨ a = 24 ∨ a = 28 ∨ a = 32 ∨ a = 36 := by omega
    rcases this with rfl | rfl | rfl | rfl | rfl | rfl | rfl | rfl | rfl | rfl <;> simp [regAt]
  · repeat' split
    all_goals simp
    all_goals omega

theorem byteRegion_isSome (c : Config) (a : Nat) : (byteRegion c a).isSome ↔ inByteRegion c a := by
  unfold byteRegion inByteRegion Config.bufBytes msgBase
  repeat' split
  all_goals simp
  all_goals omega

/-- The map lets an access through exactly where R62 and R64 do. -/
theorem target_isSome (c : Config) (a : Nat) (sz : Size) : (target c a sz).isSome ↔ readAllowed c a sz := by
  unfold target readAllowed
  cases sz with
  | byte => simp [byteRegion_isSome]
  | word =>
    simp only [forall_const, reduceCtorEq, false_implies, and_true]
    by_cases h4 : a % 4 = 0
    · simp only [h4, ne_eq, not_true_eq_false, if_false, true_and]
      rw [← wordRegion_isSome h4, ← byteRegion_isSome]
      cases wordRegion a <;> simp
    · simp [h4]

/-- A read changes at most the count of free values. -/
theorem readTarget_frame (t : Target) (sz : Size) (s : State) : ∃ v n, s.readTarget t sz = (v, s.setDraws n) := by
  cases t with
  | reg r => exact ⟨_, s.draws, rfl⟩
  | h i => exact ⟨_, s.draws, rfl⟩
  | wk i => exact ⟨_, s.draws, rfl⟩
  | w t => exact ⟨_, _, State.readElem_eq _ _⟩
  | hex j =>
    cases sz with
    | byte => exact ⟨_, _, congrArg (fun r => (BitVec.setWidth 32 r.1, r.2)) (State.readElem_eq _ _)⟩
    | word => exact ⟨_, _, State.readQuad_eq _ _ _⟩
  | msg o =>
    cases sz with
    | byte => exact ⟨_, _, congrArg (fun r => (BitVec.setWidth 32 r.1, r.2)) (State.readElem_eq _ _)⟩
    | word => exact ⟨_, _, State.readQuad_eq _ _ _⟩

theorem busRead_refused {s : State} {a : Nat} {sz : Size} (h : ¬ readAllowed s.cfg a sz) :
    s.busRead a sz = ((0, .error), s.busError) := by
  rw [← target_isSome] at h
  cases ht : target s.cfg a sz with
  | none => simp [State.busRead, ht]
  | some t => simp [ht] at h

theorem busRead_allowed {s : State} {a : Nat} {sz : Size} (h : readAllowed s.cfg a sz) :
    ∃ v n, s.busRead a sz = ((v, .okay), s.setDraws n) := by
  rw [← target_isSome] at h
  cases ht : target s.cfg a sz with
  | none => simp [ht] at h
  | some t =>
    obtain ⟨v, n, hv⟩ := readTarget_frame t sz s
    simp only [State.busRead, ht, hv, State.readElem_eq]
    split
    · exact ⟨_, _, rfl⟩
    · exact ⟨_, _, rfl⟩

/-! ## What each target stands for -/

theorem regAt_offset {a : Nat} {r : Reg} (h : regAt a = some r) :
    a = (match r with
      | .id => 0x000 | .ctrl => 0x004 | .status => 0x008 | .cmd => 0x00C | .errcmd => 0x010
      | .lenLo => 0x014 | .lenHi => 0x018 | .plen => 0x01C | .rcnt => 0x020 | .bufblk => 0x024) := by
  unfold regAt at h
  split at h <;> simp only [Option.some.injEq, reduceCtorEq] at h <;> subst h <;> rfl

/-- The offset of a target the map gives (R62). -/
theorem target_offset {c : Config} {a : Nat} {sz : Size} {t : Target} (h : target c a sz = some t) :
    match t with
    | .reg r => sz = .word ∧ regAt a = some r
    | .h i => sz = .word ∧ a = 0x040 + 4 * i.val
    | .wk i => sz = .word ∧ a = 0x060 + 4 * i.val
    | .w i => sz = .word ∧ a = 0x100 + 4 * i.val
    | .hex j => a = 0x080 + j ∧ j < 40 ∧ (sz = .word → j % 4 = 0)
    | .msg o => a = msgBase + o ∧ o < c.bufBytes ∧ (sz = .word → o % 4 = 0) := by
  have hbyte : ∀ u, (sz = .word → a % 4 = 0) → byteRegion c a = some u →
      match u with
      | .hex j => a = 0x080 + j ∧ j < 40 ∧ (sz = .word → j % 4 = 0)
      | .msg o => a = msgBase + o ∧ o < c.bufBytes ∧ (sz = .word → o % 4 = 0)
      | _ => False := by
    intro u h4 hu
    unfold byteRegion at hu
    split at hu
    · simp only [Option.some.injEq] at hu; subst hu
      exact ⟨by omega, by omega, fun hs => by have := h4 hs; omega⟩
    · split at hu
      · simp only [Option.some.injEq] at hu; subst hu
        exact ⟨by omega, by omega, fun hs => by have := h4 hs; simp only [msgBase]; omega⟩
      · simp at hu
  cases sz with
  | byte =>
    have := hbyte t (by simp) h
    revert this
    cases t <;> simp
  | word =>
    simp only [target] at h
    split at h
    · simp at h
    · rename_i h4
      simp only [ne_eq, not_not] at h4
      cases hw : wordRegion a with
      | none =>
        rw [hw] at h
        have := hbyte t (fun _ => h4) h
        revert this
        cases t <;> simp
      | some u =>
        rw [hw] at h
        simp only [Option.some.injEq] at h
        subst h
        unfold wordRegion at hw
        split at hw
        · cases hr : regAt a with
          | none => simp [hr] at hw
          | some r =>
            simp only [hr, Option.map_some, Option.some.injEq] at hw
            subst hw
            exact ⟨rfl, rfl⟩
        · split at hw
          · simp only [Option.some.injEq] at hw; subst hw
            refine ⟨rfl, ?_⟩
            simp only [Fin.ofNat]; omega
          · split at hw
            · simp only [Option.some.injEq] at hw; subst hw
              refine ⟨rfl, ?_⟩
              simp only [Fin.ofNat]; omega
            · split at hw
              · simp only [Option.some.injEq] at hw; subst hw
                refine ⟨rfl, ?_⟩
                simp only [Fin.ofNat]; omega
              · simp at hw

theorem target_h (c : Config) (i : Fin 5) : target c (0x040 + 4 * i.val) .word = some (.h i) := by
  have := i.isLt
  have hi : Fin.ofNat 5 ((0x040 + 4 * i.val - 0x040) / 4) = i := Fin.ext (by simp only [Fin.ofNat]; omega)
  simp only [target, wordRegion]
  rw [if_neg (by omega), if_neg (by omega), if_pos (by omega), hi]

theorem target_wk (c : Config) (i : Fin 5) : target c (0x060 + 4 * i.val) .word = some (.wk i) := by
  have := i.isLt
  have hi : Fin.ofNat 5 ((0x060 + 4 * i.val - 0x060) / 4) = i := Fin.ext (by simp only [Fin.ofNat]; omega)
  simp only [target, wordRegion]
  rw [if_neg (by omega), if_neg (by omega), if_neg (by omega), if_pos (by omega), hi]

theorem target_w (c : Config) (i : Fin 80) : target c (0x100 + 4 * i.val) .word = some (.w i) := by
  have := i.isLt
  have hi : Fin.ofNat 80 ((0x100 + 4 * i.val - 0x100) / 4) = i := Fin.ext (by simp only [Fin.ofNat]; omega)
  simp only [target, wordRegion]
  rw [if_neg (by omega), if_neg (by omega), if_neg (by omega), if_neg (by omega), if_pos (by omega), hi]

theorem target_hex (c : Config) (sz : Size) {j : Nat} (hj : j < 40) (h4 : sz = .word → j % 4 = 0) :
    target c (0x080 + j) sz = some (.hex j) := by
  cases sz with
  | byte => simp only [target, byteRegion]; rw [if_pos (by omega), Nat.add_sub_cancel_left]
  | word =>
    have := h4 rfl
    simp only [target, wordRegion, byteRegion]
    rw [if_neg (by omega), if_neg (by omega), if_neg (by omega), if_neg (by omega), if_neg (by omega),
      if_pos (by omega), Nat.add_sub_cancel_left]

theorem target_msg (c : Config) (sz : Size) {o : Nat} (ho : o < c.bufBytes) (h4 : sz = .word → o % 4 = 0) :
    target c (0x40000000 + o) sz = some (.msg o) := by
  have hb : byteRegion c (0x40000000 + o) = some (.msg o) := by
    have hm : msgBase = 0x40000000 := rfl
    unfold byteRegion
    rw [if_neg (by omega), if_pos (by omega), hm, Nat.add_sub_cancel_left]
  cases sz with
  | byte => exact hb
  | word =>
    have := h4 rfl
    simp only [target, wordRegion]
    rw [if_neg (by omega), if_neg (by omega), if_neg (by omega), if_neg (by omega), if_neg (by omega)]
    exact hb

/-! ## Writes -/

theorem busWrite_refused {s : State} {a : Nat} {sz : Size} (v : Word) (h : ¬ writeAllowed s a sz) :
    s.busWrite a sz v = (.error, s.busError) := by
  unfold State.busWrite
  cases ht : target s.cfg a sz with
  | none => rfl
  | some t =>
    have hr : readAllowed s.cfg a sz := by rw [← target_isSome, ht]; rfl
    have ho := target_offset ht
    simp only
    split
    · rfl
    · rename_i hb
      cases t with
      | reg r =>
        have ha := regAt_offset ho.2
        cases r <;> simp only [State.writeTarget] at ha ⊢
        all_goals
          exfalso
          apply h
          refine ⟨hr, ?_, ?_⟩ <;> simp_all [readOnlyOffset, Target.writableWhileBusy]
      | h i =>
        exfalso; apply h
        refine ⟨hr, ?_, ?_⟩
        · simp only [readOnlyOffset]; omega
        · intro hbusy; simp_all [Target.writableWhileBusy]
      | wk i =>
        exfalso; apply h
        refine ⟨hr, ?_, ?_⟩
        · simp only [readOnlyOffset]; omega
        · intro hbusy; simp_all [Target.writableWhileBusy]
      | w i =>
        exfalso; apply h
        refine ⟨hr, ?_, ?_⟩
        · simp only [readOnlyOffset]; omega
        · intro hbusy; simp_all [Target.writableWhileBusy]
      | hex j => rfl
      | msg o =>
        exfalso; apply h
        refine ⟨hr, ?_, ?_⟩
        · simp only [readOnlyOffset, msgBase] at ho ⊢; omega
        · intro hbusy; simp_all [Target.writableWhileBusy]

/-- An allowed write answers OKAY with its target's effect. -/
theorem busWrite_allowed {s : State} {a : Nat} {sz : Size} (v : Word) (h : writeAllowed s a sz) :
    ∃ t s', target s.cfg a sz = some t ∧ s.writeTarget t sz v = some s' ∧ s.busWrite a sz v = (.okay, s') := by
  obtain ⟨hr, hro, hbusy⟩ := h
  rw [← target_isSome] at hr
  cases ht : target s.cfg a sz with
  | none => simp [ht] at hr
  | some t =>
    have ho := target_offset ht
    unfold State.busWrite
    simp only [ht]
    cases t with
    | reg r =>
      have ha := regAt_offset ho.2
      cases r <;> simp only at ha <;> subst ha <;>
        simp_all [readOnlyOffset, Target.writableWhileBusy, State.writeTarget]
    | h i =>
      have hb : s.status.busy = false := by
        by_contra hb; simp only [Bool.not_eq_false] at hb; have := hbusy hb; omega
      simp [hb, State.writeTarget]
    | wk i =>
      have hb : s.status.busy = false := by
        by_contra hb; simp only [Bool.not_eq_false] at hb; have := hbusy hb; omega
      simp [hb, State.writeTarget]
    | w i =>
      have hb : s.status.busy = false := by
        by_contra hb; simp only [Bool.not_eq_false] at hb; have := hbusy hb; omega
      simp [hb, State.writeTarget]
    | hex j => exact absurd (by simp only [readOnlyOffset]; omega) hro
    | msg o =>
      have hb : s.status.busy = false := by
        by_contra hb; simp only [Bool.not_eq_false] at hb; have := hbusy hb; simp only [msgBase] at ho; omega
      simp [hb, State.writeTarget]

/-- An access to a known target, while idle or to one the busy rule lets through. -/
theorem busWrite_target {s : State} {a : Nat} {sz : Size} {v : Word} {t : Target} {s' : State}
    (ht : target s.cfg a sz = some t) (hb : s.status.busy = false ∨ t.writableWhileBusy = true)
    (hw : s.writeTarget t sz v = some s') : s.busWrite a sz v = (.okay, s') := by
  unfold State.busWrite
  rcases hb with hb | hb <;> simp [ht, hb, hw]

theorem busRead_target {s : State} {a : Nat} {sz : Size} {t : Target} (ht : target s.cfg a sz = some t)
    (hb : s.status.busy = false ∨ t.exactWhileBusy = true) :
    s.busRead a sz = (((s.readTarget t sz).1, .okay), (s.readTarget t sz).2) := by
  unfold State.busRead
  rcases hb with hb | hb <;> simp [ht, hb]

end Sys2Proof.Machine
end

