-- ==== Sys2Proof/Laws/Effects.lean ====
section
/-! SUPPORT. What a command that passes its checks leaves, register by register, and what an access or a turn of CORE
can change. -/

namespace Sys2Proof.Machine

/-! ## Checks passed -/

theorem padBody_eq_ok {s t : State} (h : padBody s = .ok t) : s.PadFits ∧ t = padEffect s := by
  rcases padBody_cases s with ⟨-, h'⟩ | ⟨-, -, h'⟩ | ⟨hf, h'⟩ <;> rw [h'] at h <;>
    simp only [Except.ok.injEq, reduceCtorEq] at h
  exact ⟨hf, h.symm⟩

theorem schedBody_eq_ok {b : Nat} {s t : State} (h : schedBody b s = .ok t) : b < s.blocks ∧ t = schedEffect b s := by
  simp only [schedBody] at h
  split at h <;> simp only [Except.ok.injEq, reduceCtorEq] at h
  exact ⟨by omega, h.symm⟩

theorem roundBody_eq_ok {s t : State} (h : roundBody s = .ok t) : s.rcnt.toNat < 80 ∧ t = roundEffect s := by
  simp only [roundBody] at h
  split at h <;> simp only [Except.ok.injEq, reduceCtorEq] at h
  exact ⟨by omega, h.symm⟩

theorem feedfwdBody_eq_ok {s t : State} (h : feedfwdBody s = .ok t) : s.rcnt.toNat = 80 ∧ t = feedfwdEffect s := by
  simp only [feedfwdBody] at h
  split at h <;> simp only [Except.ok.injEq, reduceCtorEq] at h
  exact ⟨by omega, h.symm⟩

/-- HASH passes its checks exactly where PAD does (R221). -/
theorem hashBody_ok {s : State} (h : s.PadFits) :
    hashBody s = .ok (encodeEffect (hashBlocks (padEffect s).blocks (initEffect (padEffect s)))) := by
  simp [hashBody, padBody_ok h]

theorem hashBody_eq_ok {s t : State} (h : hashBody s = .ok t) :
    s.PadFits ∧ t = encodeEffect (hashBlocks (padEffect s).blocks (initEffect (padEffect s))) := by
  have hf : s.PadFits := by
    rcases padBody_cases s with ⟨-, h'⟩ | ⟨-, -, h'⟩ | ⟨h', -⟩
    · simp [hashBody, h'] at h
    · simp [hashBody, h'] at h
    · exact h'
  rw [hashBody_ok hf] at h
  simp only [Except.ok.injEq] at h
  exact ⟨hf, h.symm⟩

theorem padEffect_plen (s : State) : (padEffect s).plen = BitVec.ofNat 32 (padLength s.len.toNat) := rfl

/-- A buffer's size fits PLEN (R9). -/
theorem Config.bufBytes_lt {c : Config} (h : c.wf) : c.bufBytes < 2 ^ 32 := by
  unfold Config.wf at h; unfold Config.bufBytes; omega

/-- PLEN holds P(LEN) without loss once PAD has passed its checks (R29, R134). -/
theorem toNat_padEffect_plen {s : State} (hc : s.cfg.wf) (hf : s.PadFits) :
    (padEffect s).plen.toNat = padLength s.len.toNat := by
  have hlt := Config.bufBytes_lt hc
  have hP : padLength s.len.toNat ≤ s.cfg.bufBytes := hf.2
  rw [padEffect_plen, BitVec.toNat_ofNat, Nat.mod_eq_of_lt (by omega)]

/-- HASH leaves M and PLEN as PAD does, and RCNT 0 (R221). -/
theorem hashBody_frame {s t : State} (h : hashBody s = .ok t) :
    t.mem = (padEffect s).mem ∧ t.plen = (padEffect s).plen ∧ t.rcnt = 0 := by
  rw [(hashBody_eq_ok h).2]
  obtain ⟨-, hm, hp, -, hr⟩ := hashBlocks_frame (padEffect s).blocks (initEffect (padEffect s))
  simp only [encodeEffect, State.setHex_mem, State.setHex_plen, State.setHex_rcnt]
  exact ⟨hm.trans (by simp [initEffect]), hp.trans (by simp [initEffect]), hr (by simp [initEffect])⟩

/-- What a command that passes its checks does to each datapath register. -/
theorem body_frame {i : Instr} {s t : State} (h : Instr.body i s = .ok t) :
    ((i = .pad ∨ i = .hash) ∧ s.PadFits ∧ t.mem = (padEffect s).mem ∧ t.plen = (padEffect s).plen ∨
      i ≠ .pad ∧ i ≠ .hash ∧ t.mem = s.mem ∧ t.plen = s.plen) ∧
    (t.hex = s.hex ∨ i = .encode ∨ i = .hash) ∧
    (t.rcnt = s.rcnt ∧ (i ≠ .init ∧ i ≠ .loadw ∧ i ≠ .round ∧ i ≠ .feedfwd ∧ i ≠ .compress ∧ i ≠ .hash) ∨
      (i = .init ∨ i = .loadw ∨ i = .feedfwd ∨ i = .compress ∨ i = .hash) ∧ t.rcnt = 0 ∨
      i = .round ∧ s.rcnt.toNat < 80 ∧ t.rcnt = s.rcnt + 1) ∧
    (t.h = s.h ∨ i = .init ∨ i = .feedfwd ∨ i = .compress ∨ i = .hash) ∧
    (t.wk = s.wk ∨ i = .init ∨ i = .loadw ∨ i = .round ∨ i = .feedfwd ∨ i = .compress ∨ i = .hash) ∧
    (t.w = s.w ∨ (∃ b, i = .sched b) ∨ i = .expand ∨ i = .hash) := by
  cases i with
  | nop => simp only [Instr.body, Except.ok.injEq] at h; subst h; simp
  | init => simp only [Instr.body, Except.ok.injEq] at h; subst h; simp [initEffect]
  | pad =>
    obtain ⟨hf, rfl⟩ := padBody_eq_ok h
    refine ⟨.inl ⟨.inl rfl, hf, rfl, rfl⟩, ?_⟩
    simp [padEffect]
  | sched b => obtain ⟨-, rfl⟩ := schedBody_eq_ok h; rw [schedEffect_frame]; simp
  | expand => simp only [Instr.body, Except.ok.injEq] at h; subst h; rw [expandEffect_frame]; simp
  | loadw => simp only [Instr.body, Except.ok.injEq] at h; subst h; simp [loadwEffect]
  | round => obtain ⟨hf, rfl⟩ := roundBody_eq_ok h; rw [roundEffect_eq]; simp [hf]
  | feedfwd => obtain ⟨-, rfl⟩ := feedfwdBody_eq_ok h; rw [feedfwdEffect_eq]; simp
  | compress => simp only [Instr.body, Except.ok.injEq] at h; subst h; rw [compressEffect_eq]; simp
  | encode => simp only [Instr.body, Except.ok.injEq] at h; subst h; simp [encodeEffect]
  | hash =>
    obtain ⟨h1, h2, h3⟩ := hashBody_frame h
    refine ⟨.inl ⟨.inr rfl, (hashBody_eq_ok h).1, h1, h2⟩, .inr (.inr rfl), .inr (.inl ⟨by simp, h3⟩), ?_⟩
    simp

/-! ## exec of a command that passes its checks -/

theorem exec_of_ok_of_eq {i : Instr} {s t u : State} (h : Instr.body i s = .ok t) (e : t = u) :
    exec i s = .next { u with pending := none, status := u.status.succeeded, irq := u.ctrl.ie } := by
  subst e; exact exec_of_ok h

/-- A command that writes W alone (SCHED, EXPAND). -/
theorem exec_of_setWAll {i : Instr} {s t : State} (h : Instr.body i s = .ok t) {w : Vector (Elem Word) 80} {n : Nat}
    (e : t = (s.setWAll w).setDraws n) :
    exec i s = .next { s with w := w, draws := n, pending := none, status := s.status.succeeded, irq := s.ctrl.ie } := by
  rw [exec_of_ok_of_eq h e]; rfl

/-- A command that writes M and PLEN alone (PAD). -/
theorem exec_of_setMem {i : Instr} {s t : State} (h : Instr.body i s = .ok t) {m : Memory} {n : Word}
    (e : t = (s.setMem m).setPlen n) :
    exec i s = .next { s with mem := m, plen := n, pending := none, status := s.status.succeeded, irq := s.ctrl.ie } := by
  rw [exec_of_ok_of_eq h e]; rfl

/-- A command that writes HEX alone (ENCODE). -/
theorem exec_of_setHex {i : Instr} {s t : State} (h : Instr.body i s = .ok t) {x : Vector (Elem Byte) 40}
    (e : t = s.setHex x) :
    exec i s = .next { s with hex := x, pending := none, status := s.status.succeeded, irq := s.ctrl.ie } := by
  rw [exec_of_ok_of_eq h e]; rfl

/-- What a completed command leaves, field by field. -/
theorem exec_fields_of_ok {i : Instr} {s t : State} (h : Instr.body i s = .ok t) :
    ∃ u, exec i s = .next u ∧ s.CompletedOk u ∧ u.h = t.h ∧ u.wk = t.wk ∧ u.w = t.w ∧ u.hex = t.hex ∧ u.mem = t.mem ∧
      u.plen = t.plen ∧ u.rcnt = t.rcnt ∧ u.draws = t.draws ∧ u.cfg = s.cfg ∧ u.ctrl = s.ctrl ∧ u.lenLo = s.lenLo ∧
      u.lenHi = s.lenHi ∧ u.agenda = s.agenda ∧ u.reply = s.reply := by
  have hf := body_sameControl h
  refine ⟨_, exec_of_ok h, ⟨rfl, ?_, ?_, ?_⟩, rfl, rfl, rfl, rfl, rfl, rfl, rfl, rfl, hf.cfg, hf.ctrl, hf.lenLo,
    hf.lenHi, hf.agenda, hf.reply⟩
  · simp [hf.status]
  · exact hf.errcmd
  · simp [hf.ctrl]

/-! ## What accesses and turns of CORE can change -/

theorem hostRead_frame (s : State) (addr : Nat) (sz : Size) :
    (s.hostRead addr sz).cfg = s.cfg ∧ (s.hostRead addr sz).errcmd = s.errcmd ∧ (s.hostRead addr sz).len = s.len ∧
    (s.hostRead addr sz).plen = s.plen ∧ (s.hostRead addr sz).rcnt = s.rcnt ∧ (s.hostRead addr sz).hex = s.hex ∧
    (s.hostRead addr sz).pending = s.pending ∧ (s.hostRead addr sz).agenda = s.agenda := by
  unfold State.hostRead
  split
  · simp
  · rename_i a _
    by_cases hr : readAllowed s.cfg a sz
    · obtain ⟨v, n, h⟩ := busRead_allowed hr
      simp only [h]; simp [State.len]
    · simp only [busRead_refused hr]; simp [State.len]

theorem hostWrite_frame (s : State) (addr : Nat) (sz : Size) (v : Word) :
    (s.hostWrite addr sz v).cfg = s.cfg ∧ (s.hostWrite addr sz v).errcmd = s.errcmd ∧
    ((s.hostWrite addr sz v).len = s.len ∨
      sz = .word ∧ (addr = s.cfg.base + 0x14 ∨ addr = s.cfg.base + 0x18)) ∧
    (s.hostWrite addr sz v).plen = s.plen ∧ (s.hostWrite addr sz v).rcnt = s.rcnt ∧
    (s.hostWrite addr sz v).hex = s.hex ∧
    ((s.hostWrite addr sz v).pending = s.pending ∨ s.status.busy = false) ∧
    (s.hostWrite addr sz v).agenda = s.agenda := by
  unfold State.hostWrite
  split
  · simp
  · rename_i a hoff
    have ha : addr = s.cfg.base + a := by
      unfold offsetOf at hoff
      split at hoff <;> simp only [Option.some.injEq, reduceCtorEq] at hoff
      omega
    by_cases hr : writeAllowed s a sz
    · obtain ⟨x, u, h1, h2, h⟩ := busWrite_allowed v hr
      have ho := target_offset h1
      simp only [h]
      cases x with
      | reg r =>
        have hreg := regAt_offset ho.2
        cases r <;> simp only [State.writeTarget, Option.some.injEq, reduceCtorEq] at h2 <;> subst h2 <;>
          simp [State.len, State.accept, ha, hreg, ho.1]
        by_contra hb
        simp only [not_or, Bool.not_eq_false] at hb
        have := hr.2.2 hb.2; simp only [hreg] at this
        omega
      | h i => simp only [State.writeTarget, Option.some.injEq] at h2; subst h2; simp [State.len]
      | wk i => simp only [State.writeTarget, Option.some.injEq] at h2; subst h2; simp [State.len]
      | w i => simp only [State.writeTarget, Option.some.injEq] at h2; subst h2; simp [State.len, State.writeW]
      | hex i => simp [State.writeTarget] at h2
      | msg i => simp only [State.writeTarget, Option.some.injEq] at h2; subst h2; simp [State.len]
    · simp only [busWrite_refused v hr]; simp [State.len]

/-- A turn of CORE leaves nothing pending, and leaves the parameters, LEN and the agenda alone (R105, R242). -/
theorem coreTurn_frame {s t : State} (h : coreTurn s = .next t) :
    t.cfg = s.cfg ∧ t.len = s.len ∧ t.agenda = s.agenda ∧ t.pending = none := by
  rcases coreTurn_cases s with ⟨hp, h'⟩ | ⟨cmd, e, -, -, h'⟩ | ⟨cmd, i, hp, -, h'⟩
  · rw [h'] at h; simp only [Host.Outcome.next.injEq] at h; subst h; simp [hp]
  · rw [h'] at h; simp only [Host.Outcome.next.injEq] at h; subst h
    rw [State.complete_eq]; simp [State.len]
  · rw [h'] at h
    rcases exec_cases i s with ⟨e, -, h2⟩ | ⟨u, hb, h2⟩
    · rw [h2] at h; simp only [Host.Outcome.next.injEq] at h; subst h
      rw [State.complete_eq]; simp [State.len]
    · rw [h2] at h; simp only [Host.Outcome.next.injEq] at h; subst h
      have := body_sameControl hb
      rw [State.complete_eq]; simp [State.len, this.cfg, this.lenLo, this.lenHi, this.agenda]

end Sys2Proof.Machine
end

