-- ==== Sys2Proof/Laws/Control.lean ====
section
/-! SUPPORT. The datapath does not see the control side: every command's effect commutes with replacing PENDING, STATUS
and irq; so a list of accepted commands runs as the list of their effects. -/

namespace Sys2Proof.Machine

/-- s with PENDING, STATUS and irq replaced. -/
def State.withControl (p : Option Word) (st : Status) (q : Bool) (s : State) : State :=
  { s with pending := p, status := st, irq := q }

section Commute

variable (p : Option Word) (st : Status) (q : Bool) (s : State)

theorem roundEffect_withControl : roundEffect (s.withControl p st q) = (roundEffect s).withControl p st q := by
  simp only [roundEffect_eq]; rfl

theorem expandWord_withControl (t : Nat) :
    expandWord t (s.withControl p st q) = (expandWord t s).withControl p st q := by
  simp only [expandWord_eq]; rfl

theorem loadBlockWord_withControl (b t : Nat) :
    loadBlockWord b t (s.withControl p st q) = (loadBlockWord b t s).withControl p st q := by
  simp only [loadBlockWord_eq]
  simp only [loadValue, State.memRead4, State.readQuad_eq]
  rfl

theorem foldl_withControl {α : Type} (f : State → α → State)
    (h : ∀ s a, f (s.withControl p st q) a = (f s a).withControl p st q) (l : List α) :
    l.foldl f (s.withControl p st q) = (l.foldl f s).withControl p st q := by
  induction l generalizing s with
  | nil => rfl
  | cons a l ih => simp [h, ih]

theorem expandEffect_withControl : expandEffect (s.withControl p st q) = (expandEffect s).withControl p st q :=
  foldl_withControl p st q s _ (fun s a => expandWord_withControl p st q s a) _

theorem schedEffect_withControl (b : Nat) :
    schedEffect b (s.withControl p st q) = (schedEffect b s).withControl p st q := by
  simp only [schedEffect, loadBlock]
  rw [foldl_withControl p st q s (fun s t => loadBlockWord b t s)
    (fun s a => loadBlockWord_withControl p st q s b a), expandEffect_withControl]

theorem rounds_withControl (k : Nat) :
    roundEffect^[k] (s.withControl p st q) = (roundEffect^[k] s).withControl p st q := by
  induction k with
  | zero => rfl
  | succ k ih => rw [roundEffect_iterate_succ, roundEffect_iterate_succ, ih, roundEffect_withControl]

theorem initEffect_withControl : initEffect (s.withControl p st q) = (initEffect s).withControl p st q := rfl

theorem loadwEffect_withControl : loadwEffect (s.withControl p st q) = (loadwEffect s).withControl p st q := rfl

theorem feedfwdEffect_withControl :
    feedfwdEffect (s.withControl p st q) = (feedfwdEffect s).withControl p st q := rfl

theorem compressEffect_withControl :
    compressEffect (s.withControl p st q) = (compressEffect s).withControl p st q := by
  rw [compressEffect, compressEffect, loadwEffect_withControl, rounds_withControl, feedfwdEffect_withControl]

theorem encodeEffect_withControl : encodeEffect (s.withControl p st q) = (encodeEffect s).withControl p st q := by
  simp only [encodeEffect]; rfl

theorem padEffect_withControl : padEffect (s.withControl p st q) = (padEffect s).withControl p st q := by
  have h : (s.withControl p st q).len = s.len := rfl
  have h2 : (s.withControl p st q).mem = s.mem := rfl
  simp only [padEffect, h, h2]
  generalize padLength s.len.toNat = P
  generalize Memory.store _ _ _ = m
  rfl

theorem hashBlock_withControl (b : Nat) :
    hashBlock (s.withControl p st q) b = (hashBlock s b).withControl p st q := by
  rw [hashBlock, hashBlock, schedEffect_withControl, compressEffect_withControl]

theorem hashBlocks_withControl (n : Nat) :
    hashBlocks n (s.withControl p st q) = (hashBlocks n s).withControl p st q :=
  foldl_withControl p st q s _ (fun s b => hashBlock_withControl p st q s b) _

theorem padBody_withControl :
    padBody (s.withControl p st q) = (padBody s).map (State.withControl p st q) := by
  have h : (s.withControl p st q).len = s.len := rfl
  have h2 : (s.withControl p st q).cfg = s.cfg := rfl
  unfold padBody
  rw [h, h2, padEffect_withControl]
  split
  · rfl
  · split <;> rfl

/-- Checks and effect of every command commute with the control side (R101, R242). -/
theorem body_withControl (i : Instr) :
    Instr.body i (s.withControl p st q) = (Instr.body i s).map (State.withControl p st q) := by
  have hr : (s.withControl p st q).rcnt = s.rcnt := rfl
  have hb : (s.withControl p st q).blocks = s.blocks := rfl
  cases i with
  | nop => rfl
  | init => rfl
  | pad => exact padBody_withControl p st q s
  | sched b => simp only [Instr.body, schedBody, schedEffect_withControl, hb]; split <;> rfl
  | expand => simp only [Instr.body, expandEffect_withControl]; rfl
  | loadw => rfl
  | round => simp only [Instr.body, roundBody, roundEffect_withControl, hr]; split <;> rfl
  | feedfwd => simp only [Instr.body, feedfwdBody, feedfwdEffect_withControl, hr]; split <;> rfl
  | compress => simp only [Instr.body, compressEffect_withControl]; rfl
  | encode => simp only [Instr.body, encodeEffect_withControl]; rfl
  | hash =>
    simp only [Instr.body, hashBody, padBody_withControl]
    cases padBody s with
    | error e => rfl
    | ok t =>
      have h : (t.withControl p st q).blocks = t.blocks := rfl
      simp only [Except.map, h, initEffect_withControl, hashBlocks_withControl, encodeEffect_withControl]

end Commute

/-! ## Lists of accepted commands -/

/-- s as a command that has just succeeded leaves it (R242). -/
def State.finished (s : State) : State := s.withControl none s.status.succeeded s.ctrl.ie

theorem exec_finished {i : Instr} {s t : State} (h : Instr.body i s = .ok t) : exec i s = .next t.finished :=
  exec_of_ok h

/-- An accepted command that passes its checks runs, then the rest of the list. -/
theorem issueAll_cons {i : Instr} {is : List Instr} {s t : State} (h : Instr.body i s = .ok t) :
    issueAll (i :: is) s = issueAll is t.finished := by
  have ha : (s.accept (encode i)).refreshIrq = s.withControl (some (encode i)) s.status.accepted false := by
    simp [State.accept, State.refreshIrq, irqLevel, Status.accepted]; rfl
  have hb := body_withControl (some (encode i)) s.status.accepted false s i
  rw [h] at hb
  have hf := body_sameControl h
  have hx : exec i (s.withControl (some (encode i)) s.status.accepted false) = .next t.finished := by
    rw [exec_of_ok hb]
    have : (t.withControl (some (encode i)) s.status.accepted false).status.succeeded = t.status.succeeded := by
      show s.status.accepted.succeeded = _
      rw [hf.status]; rfl
    rw [this]; rfl
  simp only [issueAll, ha, hx]

theorem body_finished {i : Instr} {s t : State} (h : Instr.body i s = .ok t) :
    Instr.body i s.finished = .ok (t.withControl none s.status.succeeded s.ctrl.ie) := by
  rw [State.finished, body_withControl, h]; rfl

/-- The checks and effects of a list of commands, one after another, up to the first error. -/
def runBodies : List Instr → State → Except CmdError State
  | [], s => .ok s
  | i :: is, s =>
    match Instr.body i s with
    | .error e => .error e
    | .ok t => runBodies is t

theorem runBodies_append {a b : List Instr} {s t : State} (h : runBodies a s = .ok t) :
    runBodies (a ++ b) s = runBodies b t := by
  induction a generalizing s with
  | nil => simp only [runBodies, Except.ok.injEq] at h; subst h; rfl
  | cons i a ih =>
    simp only [runBodies, List.cons_append] at h ⊢
    cases hb : Instr.body i s with
    | error e => rw [hb] at h; simp at h
    | ok u => rw [hb] at h; exact ih h

theorem issueAll_finished {is : List Instr} {s t : State} (h : runBodies is s = .ok t) :
    issueAll is s.finished = .next t.finished := by
  induction is generalizing s with
  | nil => simp only [runBodies, Except.ok.injEq] at h; subst h; rfl
  | cons i is ih =>
    simp only [runBodies] at h
    cases hb : Instr.body i s with
    | error e => rw [hb] at h; simp at h
    | ok u =>
      rw [hb] at h
      rw [issueAll_cons (body_finished hb)]
      have hf := body_sameControl hb
      have : (u.withControl none s.status.succeeded s.ctrl.ie).finished = u.finished := by
        simp only [State.finished, State.withControl, hf.status, hf.ctrl]; rfl
      rw [this, ih h]

/-- A list of commands that pass their checks, issued one by one, leaves the state their effects leave, completed. -/
theorem issueAll_of_runBodies {i : Instr} {is : List Instr} {s t : State} (h : runBodies (i :: is) s = .ok t) :
    issueAll (i :: is) s = .next t.finished := by
  simp only [runBodies] at h
  cases hb : Instr.body i s with
  | error e => rw [hb] at h; simp at h
  | ok u => rw [hb] at h; rw [issueAll_cons hb, issueAll_finished h]

end Sys2Proof.Machine
end

