-- ==== Sys2Proof/Laws/PerInstr.lean ====
section
/-! SUPPORT. Per-instruction laws: every command's word matches its row of the opcode table. -/

namespace Sys2Proof.Laws.EncodingRow

/-- The match and mask of each row of spec/opcode_table.json. -/
def row : Instr → Word × Word
  | .nop => (0x00000000, 0xFFFFFFFF)
  | .init => (0x00000001, 0xFFFFFFFF)
  | .pad => (0x00000002, 0xFFFFFFFF)
  | .sched _ => (0x00000003, 0x000000FF)
  | .expand => (0x00000004, 0xFFFFFFFF)
  | .loadw => (0x00000005, 0xFFFFFFFF)
  | .round => (0x00000006, 0xFFFFFFFF)
  | .feedfwd => (0x00000007, 0xFFFFFFFF)
  | .compress => (0x00000008, 0xFFFFFFFF)
  | .encode => (0x00000009, 0xFFFFFFFF)
  | .hash => (0x0000000A, 0xFFFFFFFF)

/-- The word of i, under the mask of its row, is the match of its row (R102). -/
def Statement (i : Instr) : Prop := encode i &&& (row i).2 = (row i).1

theorem nop : Statement .nop := by unfold Statement; decide
theorem init : Statement .init := by unfold Statement; decide
theorem pad : Statement .pad := by unfold Statement; decide
theorem sched (b : Nat) : Statement (.sched b) := by
  show (BitVec.ofNat 24 b ++ (0x03 : BitVec 8)) &&& (0x000000FF : Word) = 0x00000003
  generalize BitVec.ofNat 24 b = x
  have hm : (0x000000FF : Word) = (0 : BitVec 24) ++ (0xFF : BitVec 8) := by decide
  have hr : (0x00000003 : Word) = (0 : BitVec 24) ++ (0x03 : BitVec 8) := by decide
  rw [hm, hr, BitVec.and_append]
  simp
theorem expand : Statement .expand := by unfold Statement; decide
theorem loadw : Statement .loadw := by unfold Statement; decide
theorem round : Statement .round := by unfold Statement; decide
theorem feedfwd : Statement .feedfwd := by unfold Statement; decide
theorem compress : Statement .compress := by unfold Statement; decide
theorem encode : Statement .encode := by unfold Statement; decide
theorem hash : Statement .hash := by unfold Statement; decide

end Sys2Proof.Laws.EncodingRow
end

