-- ==== Sys2Proof/Laws/Reference.lean ====
section
/-! SUPPORT. Each part of the machine against the reference function: the schedule, the rounds, the padding and the hex
text. -/

namespace Sys2Proof.Reference

/-! ## The schedule (R150, R152) -/

theorem length_extend (k : Nat) (l : List Word) : (extend^[k] l).length = l.length + k := by
  induction k generalizing l with
  | zero => rfl
  | succ k ih => rw [Function.iterate_succ_apply, ih]; simp [extend]; omega

theorem getD_extend {l : List Word} {i : Nat} (h : i < l.length) : (extend l).getD i 0 = l.getD i 0 := by
  unfold extend; exact List.getD_append _ _ _ _ h

theorem getD_extend_iterate (k : Nat) {l : List Word} {i : Nat} (h : i < l.length) :
    (extend^[k] l).getD i 0 = l.getD i 0 := by
  induction k with
  | zero => rfl
  | succ k ih => rw [Function.iterate_succ_apply', getD_extend (by rw [length_extend]; omega), ih]

/-- Further extension leaves the words already there. -/
theorem getD_extend_add (k m : Nat) {l : List Word} {i : Nat} (h : i < l.length + k) :
    (extend^[k + m] l).getD i 0 = (extend^[k] l).getD i 0 := by
  rw [Nat.add_comm, Function.iterate_add_apply, getD_extend_iterate _ (by rw [length_extend]; omega)]

theorem length_blockWords (p : List Byte) (b : Nat) : (blockWords p b).length = 16 := by simp [blockWords]

theorem getD_schedule_lo (p : List Byte) (b : Nat) {i : Nat} (h : i < 16) :
    (schedule p b).getD i 0 = (blockWords p b).getD i 0 :=
  getD_extend_iterate _ (by rw [length_blockWords]; exact h)

/-- The recurrence of the schedule (R152). -/
theorem getD_schedule_hi (p : List Byte) (b : Nat) {i : Nat} (h : 16 ≤ i) (h80 : i < 80) :
    (schedule p b).getD i 0 =
      ((schedule p b).getD (i - 16) 0 ^^^ (schedule p b).getD (i - 14) 0 ^^^ (schedule p b).getD (i - 8) 0
        ^^^ (schedule p b).getD (i - 3) 0).rotateLeft 1 := by
  obtain ⟨k, rfl⟩ : ∃ k, i = 16 + k := ⟨i - 16, by omega⟩
  have hs : ∀ j, j < 16 + k → (schedule p b).getD j 0 = (extend^[k] (blockWords p b)).getD j 0 := by
    intro j hj
    rw [schedule, show 64 = k + (64 - k) by omega, getD_extend_add _ _ (by rw [length_blockWords]; exact hj)]
  have hk : (schedule p b).getD (16 + k) 0 = (extend^[k + 1] (blockWords p b)).getD (16 + k) 0 := by
    rw [schedule, show 64 = (k + 1) + (63 - k) by omega, getD_extend_add _ _ (by rw [length_blockWords]; omega)]
  rw [hs (16 + k - 16) (by omega), hs (16 + k - 14) (by omega), hs (16 + k - 8) (by omega), hs (16 + k - 3) (by omega),
    hk, Function.iterate_succ_apply']
  have hl : (extend^[k] (blockWords p b)).length = 16 + k := by rw [length_extend, length_blockWords]
  generalize extend^[k] (blockWords p b) = l at hl ⊢
  simp only [extend, hl]
  rw [List.getD_append_right _ _ _ _ (by omega), hl]; simp

/-- Four bytes joined are their big-endian number. -/
theorem append_eq_ofNat (a b c d : Byte) :
    a ++ b ++ c ++ d = BitVec.ofNat 32 (a.toNat * 2 ^ 24 + b.toNat * 2 ^ 16 + c.toNat * 2 ^ 8 + d.toNat) := by
  have app : ∀ {n : Nat} (x : BitVec n) (y : Byte), (x ++ y).toNat = x.toNat * 256 + y.toNat := by
    intro n x y
    rw [BitVec.toNat_append, ← Nat.shiftLeft_add_eq_or_of_lt (by simpa using y.isLt), Nat.shiftLeft_eq]
  have ha := a.isLt
  have hb := b.isLt
  have hc := c.isLt
  have hd := d.isLt
  apply BitVec.eq_of_toNat_eq
  rw [app, app, app, BitVec.toNat_ofNat]; omega

theorem getD_blockWords (p : List Byte) (b : Nat) {i : Nat} (h : i < 16) :
    (blockWords p b).getD i 0 =
      (p.getD (64 * b + 4 * i) 0 ++ p.getD (64 * b + 4 * i + 1) 0 ++ p.getD (64 * b + 4 * i + 2) 0
        ++ p.getD (64 * b + 4 * i + 3) 0 : Word) := by
  rw [append_eq_ofNat]; simp [blockWords, h]

theorem length_pad (msg : List Byte) : (pad msg).length = Machine.padLength msg.length := by
  simp [pad, Machine.padLength]; omega

/-! ## The rounds (R171 to R173, R179) -/

/-- Five words as the working registers. -/
def toWorking (x : Word × Word × Word × Word × Word) : Machine.Working :=
  ⟨x.1, x.2.1, x.2.2.1, x.2.2.2.1, x.2.2.2.2⟩

/-- Five words as the digest registers. -/
def toDigest (x : Word × Word × Word × Word × Word) : Vector Word 5 := #v[x.1, x.2.1, x.2.2.1, x.2.2.2.1, x.2.2.2.2]

theorem ofVec_toDigest (h : Word × Word × Word × Word × Word) : Machine.Working.ofVec (toDigest h) = toWorking h := rfl

theorem toWorking_round (ws : List Word) (x : Word × Word × Word × Word × Word) {r : Nat} (hr : r < 80) :
    toWorking (Reference.round ws x r) = Machine.roundStep r (ws.getD r 0) (toWorking x) := by
  obtain ⟨a, b, c, d, e⟩ := x
  have h : band r b c d = (Machine.stageFn (if r < 20 then 0 else if r < 40 then 1 else if r < 60 then 2 else 3) b c d,
      Machine.roundConst (if r < 20 then 0 else if r < 40 then 1 else if r < 60 then 2 else 3)) := by
    unfold band
    split
    · rfl
    · split
      · rfl
      · split <;> rfl
  simp only [Reference.round, Machine.roundStep, Machine.stageOf_eq hr, toWorking,
    Machine.rotl_eq_rotateLeft a (show 5 < 32 by decide), Machine.rotl_eq_rotateLeft b (show 30 < 32 by decide)]
  rw [h]
  generalize Machine.stageFn _ b c d = f
  generalize Machine.roundConst _ = k
  simp only [Machine.Working.mk.injEq, and_true]
  ac_rfl

theorem toWorking_foldl_round (ws : List Word) (x : Word × Word × Word × Word × Word) {k : Nat} (hk : k ≤ 80) :
    toWorking ((List.range k).foldl (Reference.round ws) x) =
      (List.range k).foldl (fun x t => Machine.roundStep t (ws.getD t 0) x) (toWorking x) := by
  induction k with
  | zero => rfl
  | succ k ih =>
    rw [List.range_succ, List.foldl_append, List.foldl_append, ← ih (by omega)]
    exact toWorking_round _ _ (by omega)

/-- The reference's compression is S + Rounds80(S, W) (R178, R179). -/
theorem toDigest_compress (ws : List Word) (h : Word × Word × Word × Word × Word) :
    toDigest (compress ws h) =
      Machine.addDigest (toDigest h) (Machine.rounds80 (fun t => ws.getD t 0) (toWorking h)) := by
  rw [Machine.rounds80, ← toWorking_foldl_round ws h (Nat.le_refl 80)]
  obtain ⟨a, b, c, d, e⟩ := h
  simp only [compress]
  generalize (List.range 80).foldl (Reference.round ws) (a, b, c, d, e) = y
  obtain ⟨a', b', c', d', e'⟩ := y
  rfl

end Sys2Proof.Reference

namespace Sys2Proof.Machine

/-! ## Folds over a range -/

theorem foldl_range_congr {α : Type} {f g : α → Nat → α} {n : Nat} (x : α) (h : ∀ a t, t < n → f a t = g a t) :
    (List.range n).foldl f x = (List.range n).foldl g x := by
  induction n with
  | zero => rfl
  | succ n ih =>
    rw [List.range_succ, List.foldl_append, List.foldl_append, ih (fun a t ht => h a t (by omega))]
    exact h _ _ (by omega)

theorem rounds80_congr {v v' : Nat → Word} (x : Working) (h : ∀ t, t < 80 → v t = v' t) :
    rounds80 v x = rounds80 v' x := by
  unfold rounds80
  exact foldl_range_congr x fun a t ht => by rw [h t ht]

/-! ## SCHED and COMPRESS -/

/-- A read of the expansion gives the word written. -/
theorem expandRead_written {s : State} {t d : Nat} {x : Word} (hd : d = 3 ∨ d = 8 ∨ d = 14 ∨ d = 16)
    (h : s.wElem (t - d) = .written x) : expandRead s t d = x := by
  rcases hd with rfl | rfl | rfl | rfl <;> simp [expandRead, h]

/-- SCHED leaves every word of W written (R153). -/
theorem wElem_schedEffect (b : Nat) (s : State) {i : Nat} (hi : i < 80) :
    ∃ v, (schedEffect b s).wElem i = .written v := by
  rw [schedEffect, expandEffect_eq, loadBlock_eq]
  by_cases h : i < 16
  · rw [wElem_expandSteps_of_not _ (by omega) (.inl h), wElem_loadSteps _ (by omega), if_pos h]; exact ⟨_, rfl⟩
  · rw [wElem_expandSteps _ (by omega) (by omega) (by omega)]; exact ⟨_, rfl⟩

/-- SCHED of a written block builds the reference's schedule and draws no free value. -/
theorem schedEffect_reference {b : Nat} {s : State} {p : List Byte}
    (h : ∀ k, k < 64 → s.mem.find (64 * b + k) = .written (p.getD (64 * b + k) 0)) :
    (∀ i, i < 80 → (schedEffect b s).wElem i = .written ((Reference.schedule p b).getD i 0)) ∧
      (schedEffect b s).draws = s.draws := by
  have hne : ∀ o, 64 * b ≤ o → o < 64 * b + 64 → s.mem.find o ≠ .unwritten := by
    intro o h1 h2
    have := h (o - 64 * b) (by omega)
    rw [show 64 * b + (o - 64 * b) = o by omega] at this
    rw [this]; simp
  have hlo : ∀ i, i < 16 → (loadSteps b 16 s).wElem i = .written ((Reference.schedule p b).getD i 0) := by
    intro i hi
    rw [wElem_loadSteps _ (by omega), if_pos hi, Reference.getD_schedule_lo _ _ hi, Reference.getD_blockWords _ _ hi,
      loadValue_written (x0 := p.getD (64 * b + 4 * i) 0) (x1 := p.getD (64 * b + 4 * i + 1) 0)
        (x2 := p.getD (64 * b + 4 * i + 2) 0) (x3 := p.getD (64 * b + 4 * i + 3) 0)]
    · rw [loadSteps_mem]; exact h (4 * i) (by omega)
    · rw [loadSteps_mem]; exact h (4 * i + 1) (by omega)
    · rw [loadSteps_mem]; exact h (4 * i + 2) (by omega)
    · rw [loadSteps_mem]; exact h (4 * i + 3) (by omega)
  rw [schedEffect, expandEffect_eq, loadBlock_eq]
  constructor
  · have hall : ∀ k, k ≤ 64 → ∀ i, i < 16 + k →
        (expandSteps k (loadSteps b 16 s)).wElem i = .written ((Reference.schedule p b).getD i 0) := by
      intro k
      induction k with
      | zero => intro _ i hi; rw [expandSteps_zero]; exact hlo i hi
      | succ k ih =>
        intro hk i hi
        have ih := ih (by omega)
        rw [wElem_expandSteps_succ _ _ (by omega)]
        split
        · rename_i e
          rw [e, Reference.getD_schedule_hi _ _ (by omega) (by omega), expandValue, rotl_eq_rotateLeft _ (by decide),
            expandRead_written (by simp) (ih (16 + k - 3) (by omega)),
            expandRead_written (by simp) (ih (16 + k - 8) (by omega)),
            expandRead_written (by simp) (ih (16 + k - 14) (by omega)),
            expandRead_written (by simp) (ih (16 + k - 16) (by omega))]
          generalize (Reference.schedule p b).getD (16 + k - 3) 0 = a3
          generalize (Reference.schedule p b).getD (16 + k - 8) 0 = a8
          generalize (Reference.schedule p b).getD (16 + k - 14) 0 = a14
          generalize (Reference.schedule p b).getD (16 + k - 16) 0 = a16
          have e : a3 ^^^ a8 ^^^ a14 ^^^ a16 = a16 ^^^ a14 ^^^ a8 ^^^ a3 := by ac_rfl
          rw [e]
        · exact ih i (by omega)
    intro i hi
    exact hall 64 (Nat.le_refl _) i (by omega)
  · rw [draws_expandSteps _ (by omega), draws_loadSteps s (by omega) hne]
    intro i hi; rw [hlo i hi]; simp

/-- COMPRESS with W written is the reference's compression and draws no free value. -/
theorem compressEffect_reference {s : State} {ws : List Word} {d : Word × Word × Word × Word × Word}
    (h : ∀ i, i < 80 → s.wElem i = .written (ws.getD i 0)) (hd : s.h = Reference.toDigest d) :
    (compressEffect s).h = Reference.toDigest (Reference.compress ws d) ∧ (compressEffect s).draws = s.draws := by
  have hv : ∀ t, t < 80 → roundWordAt (loadwEffect s) t = ws.getD t 0 := by
    intro t ht
    have : (loadwEffect s).wElem t = .written (ws.getD t 0) := h t ht
    simp [roundWordAt, this]
  constructor
  · rw [compressEffect_eq, Reference.toDigest_compress, hd, Reference.ofVec_toDigest, rounds80_congr _ hv]
  · rw [compressEffect_eq]
    dsimp only
    exact draws_rounds 80 (Nat.le_refl _) (loadwEffect s) rfl
      (fun i hi => by show s.wElem i ≠ _; rw [h i hi]; simp)

/-- The blocks of a written padded message, from the digest d. -/
theorem hashBlocks_reference {s : State} {p : List Byte} {n : Nat} {d : Word × Word × Word × Word × Word}
    (hd : s.h = Reference.toDigest d) (hm : ∀ o, o < 64 * n → s.mem.find o = .written (p.getD o 0)) :
    (hashBlocks n s).h = Reference.toDigest
        ((List.range n).foldl (fun h b => Reference.compress (Reference.schedule p b) h) d) ∧
      (hashBlocks n s).draws = s.draws ∧
      (∀ i, 0 < n → i < 80 → (hashBlocks n s).wElem i = .written ((Reference.schedule p (n - 1)).getD i 0)) ∧
      (0 < n → (hashBlocks n s).wk = Working.ofVec (hashBlocks n s).h) := by
  induction n with
  | zero => exact ⟨hd, rfl, by omega, by omega⟩
  | succ n ih =>
    obtain ⟨h1, h2, -⟩ := ih (fun o ho => hm o (by omega))
    rw [hashBlocks_succ, List.range_succ, List.foldl_append]
    have hmem := (hashBlocks_frame n s).2.1
    generalize hashBlocks n s = u at *
    obtain ⟨a1, a2⟩ := schedEffect_reference (s := u) (b := n) (p := p)
      (by intro k hk; rw [hmem]; exact hm _ (by omega))
    have ah : (schedEffect n u).h = u.h := by rw [schedEffect_frame]; simp
    obtain ⟨c1, c2⟩ := compressEffect_reference a1 (ah.trans h1)
    refine ⟨c1, ?_, ?_, ?_⟩
    · rw [hashBlock, c2, a2, h2]
    · intro i _ hi; rw [hashBlock, wElem_compressEffect, a1 i hi]; rfl
    · intro _; rw [hashBlock, compressEffect_eq]

/-! ## PAD -/

/-- Byte j of a 64-bit value, most significant first. -/
theorem extractLsb'_eq_ofNat (v : BitVec 64) {j : Nat} (hj : j < 8) :
    v.extractLsb' (56 - 8 * j) 8 = BitVec.ofNat 8 (v.toNat / 256 ^ (7 - j)) := by
  apply BitVec.eq_of_toNat_eq
  simp only [BitVec.extractLsb'_toNat, BitVec.toNat_ofNat, Nat.shiftRight_eq_div_pow]
  have : (256 : Nat) ^ (7 - j) = 2 ^ (56 - 8 * j) := by
    rw [show (256 : Nat) = 2 ^ 8 from rfl, ← Nat.pow_mul]; congr 1; omega
  rw [this]

/-- LEN * 8 does not wrap below the length limit (R131). -/
theorem toNat_len_mul {s : State} (h : s.len.toNat < 2 ^ 61) : (s.len * 8).toNat = s.len.toNat * 8 := by
  rw [BitVec.toNat_mul]; simp; omega

/-- PAD of a written message leaves the reference's padding in M. -/
theorem find_padEffect_reference {s : State} {msg : List Byte} (hf : s.PadFits) (hmsg : s.HoldsMessage msg) {o : Nat}
    (ho : o < padLength msg.length) : (padEffect s).mem.find o = .written ((Reference.pad msg).getD o 0) := by
  obtain ⟨hl, hb⟩ := hmsg
  obtain ⟨b1, b2, b3⟩ := padLength_bounds msg.length
  have hz : (119 - msg.length % 64) % 64 = padLength msg.length - 9 - msg.length := by unfold padLength; omega
  rw [find_padEffect, hl]
  unfold Reference.pad
  rw [hz]
  generalize hP : padLength msg.length = P at *
  by_cases h1 : o < msg.length
  · rw [if_pos h1, hb o h1, List.getD_append _ _ _ _ (by simp; omega), List.getD_append _ _ _ _ (by simp; omega),
      List.getD_append _ _ _ _ h1]
    simp [h1]
  · rw [if_neg h1]
    by_cases h2 : o = msg.length
    · rw [if_pos h2, List.getD_append _ _ _ _ (by simp; omega), List.getD_append _ _ _ _ (by simp; omega),
        List.getD_append_right _ _ _ _ (by omega)]
      simp [h2]
    · rw [if_neg h2]
      by_cases h3 : o < P - 8
      · rw [if_pos h3, List.getD_append _ _ _ _ (by simp; omega), List.getD_append_right _ _ _ _ (by simp; omega)]
        rw [List.getD_replicate]
        simp; omega
      · rw [if_neg h3, if_pos ho, List.getD_append_right _ _ _ _ (by simp; omega)]
        simp only [List.length_append, List.length_replicate, List.length_cons, List.length_nil]
        have e : o - (msg.length + (0 + 1) + (P - 9 - msg.length)) = o - (P - 8) := by omega
        have h8 : o - (P - 8) < 8 := by omega
        rw [e, extractLsb'_eq_ofNat _ (by omega), toNat_len_mul hf.1, hl]
        simp [List.getD_eq_getElem?_getD, h8]

/-- PAD on a memory PAD has already written for the same LEN changes nothing (R136). -/
theorem padEffect_mem_of_padded {s t : State} (hw : s.mem.wf) (hl : t.len = s.len) (hm : t.mem = (padEffect s).mem) :
    (padEffect t).mem = t.mem := by
  rw [hm]
  apply Memory.ext_find
  · exact wf_padEffect (s := t) (by rw [hm]; exact wf_padEffect hw)
  · exact wf_padEffect hw
  · intro o
    rw [find_padEffect, hl, hm, find_padEffect]
    generalize padLength s.len.toNat = P
    repeat' split
    all_goals rfl

/-! ## ENCODE -/

/-- One character of the text, from the number its word is (R210). -/
theorem hexText_eq (h : Vector Word 5) (j : Nat) (hj : j < 40) :
    hexText h ⟨j, hj⟩ =
      if (h[j / 8]'(by omega)).toNat / 16 ^ (7 - j % 8) % 16 ≤ 9
      then BitVec.ofNat 8 (0x30 + (h[j / 8]'(by omega)).toNat / 16 ^ (7 - j % 8) % 16)
      else BitVec.ofNat 8 (0x61 + ((h[j / 8]'(by omega)).toNat / 16 ^ (7 - j % 8) % 16 - 10)) := by
  have hn : (nibble h ⟨j, hj⟩).toNat = (h[j / 8]'(by omega)).toNat / 16 ^ (7 - j % 8) % 16 := by
    simp only [nibble, BitVec.extractLsb'_toNat, Nat.shiftRight_eq_div_pow]
    have : (16 : Nat) ^ (7 - j % 8) = 2 ^ (28 - 4 * (j % 8)) := by
      rw [show (16 : Nat) = 2 ^ 4 from rfl, ← Nat.pow_mul]; congr 1; omega
    rw [this]
  rw [← hn]
  simp only [hexText, hexChar]
  have hlt := (nibble h ⟨j, hj⟩).isLt
  split
  · apply BitVec.eq_of_toNat_eq; simp
  · apply BitVec.eq_of_toNat_eq; simp [BitVec.toNat_sub]; omega

theorem hexChar_inj (a b : BitVec 4) : hexChar a = hexChar b → a = b := by revert a b; decide

/-- The text of a digest is the reference's. -/
theorem hexText_reference (d : Word × Word × Word × Word × Word) (j : Nat) (hj : j < 40) :
    hexText (Reference.toDigest d) ⟨j, hj⟩ = (Reference.toHex d).getD j 0 := by
  have hc := hexText_eq (Reference.toDigest d) j hj
  rw [hc]
  have key : ∀ (w : Word) (k : Nat), k < 8 → (Reference.hexWord w).getD k 0 =
      if w.toNat / 16 ^ (7 - k) % 16 ≤ 9 then BitVec.ofNat 8 (0x30 + w.toNat / 16 ^ (7 - k) % 16)
      else BitVec.ofNat 8 (0x61 + (w.toNat / 16 ^ (7 - k) % 16 - 10)) := by
    intro w k hk
    have : ∀ v, v < 16 → Reference.hexAlphabet.getD v 0 =
        if v ≤ 9 then BitVec.ofNat 8 (0x30 + v) else BitVec.ofNat 8 (0x61 + (v - 10)) := by decide
    rw [← this _ (Nat.mod_lt _ (by decide))]
    simp [Reference.hexWord, List.getD_eq_getElem?_getD, hk]
  have hl : ∀ w : Word, (Reference.hexWord w).length = 8 := by intro w; simp [Reference.hexWord]
  obtain ⟨h0, h1, h2, h3, h4⟩ := d
  simp only [Reference.toHex]
  obtain ⟨q, r, hr, hq, hqr⟩ : ∃ q r, r < 8 ∧ q < 5 ∧ j = 8 * q + r := ⟨j / 8, j % 8, by omega, by omega, by omega⟩
  have e1 : j / 8 = q := by omega
  have e2 : j % 8 = r := by omega
  simp only [e1, e2]
  have hq' : q = 0 ∨ q = 1 ∨ q = 2 ∨ q = 3 ∨ q = 4 := by omega
  rcases hq' with rfl | rfl | rfl | rfl | rfl
  · rw [List.getD_append _ _ _ _ (by simp [hl]; omega), List.getD_append _ _ _ _ (by simp [hl]; omega),
      List.getD_append _ _ _ _ (by simp [hl]; omega), List.getD_append _ _ _ _ (by simp [hl]; omega)]
    obtain rfl : j = r := by omega
    rw [key _ _ hr]; rfl
  · rw [List.getD_append _ _ _ _ (by simp [hl]; omega), List.getD_append _ _ _ _ (by simp [hl]; omega),
      List.getD_append _ _ _ _ (by simp [hl]; omega), List.getD_append_right _ _ _ _ (by simp [hl]; omega)]
    simp only [hl]
    rw [show j - 8 = r by omega, key _ _ hr]; rfl
  · rw [List.getD_append _ _ _ _ (by simp [hl]; omega), List.getD_append _ _ _ _ (by simp [hl]; omega),
      List.getD_append_right _ _ _ _ (by simp [hl]; omega)]
    simp only [List.length_append, hl]
    rw [show j - (8 + 8) = r by omega, key _ _ hr]; rfl
  · rw [List.getD_append _ _ _ _ (by simp [hl]; omega), List.getD_append_right _ _ _ _ (by simp [hl]; omega)]
    simp only [List.length_append, hl]
    rw [show j - (8 + 8 + 8) = r by omega, key _ _ hr]; rfl
  · rw [List.getD_append_right _ _ _ _ (by simp [hl]; omega)]
    simp only [List.length_append, hl]
    rw [show j - (8 + 8 + 8 + 8) = r by omega, key _ _ hr]; rfl

end Sys2Proof.Machine
end

