-- ==== Sys2Proof/Machine/Assembler.lean ====
section
/-! DEFINITION. The assembler syntax of commands (30_encoding R108). It has no effect on the machine (D32). -/

namespace Sys2Proof.Machine

/-- The mnemonics, upper case, of the commands without an operand (R108). -/
def asmTable : List (List Char × Instr) :=
  [(['N', 'O', 'P'], .nop), (['I', 'N', 'I', 'T'], .init), (['P', 'A', 'D'], .pad),
   (['E', 'X', 'P', 'A', 'N', 'D'], .expand), (['L', 'O', 'A', 'D', 'W'], .loadw),
   (['R', 'O', 'U', 'N', 'D'], .round), (['F', 'E', 'E', 'D', 'F', 'W', 'D'], .feedfwd),
   (['C', 'O', 'M', 'P', 'R', 'E', 'S', 'S'], .compress), (['E', 'N', 'C', 'O', 'D', 'E'], .encode),
   (['H', 'A', 'S', 'H'], .hash)]

/-- The value of a digit in base 10 or 16; none for any other character. -/
def digitValue (base : Nat) (c : Char) : Option Nat :=
  let n := c.toNat
  let v := if 0x30 ≤ n ∧ n ≤ 0x39 then n - 0x30
    else if 0x61 ≤ n ∧ n ≤ 0x66 then n - 0x61 + 10
    else if 0x41 ≤ n ∧ n ≤ 0x46 then n - 0x41 + 10
    else base
  if v < base then some v else none

/-- Digits read from the most significant one; `acc` is what stands before them. -/
def digitsValue (base : Nat) : List Char → Nat → Option Nat
  | [], acc => some acc
  | c :: cs, acc =>
    match digitValue base c with
    | none => none
    | some d => digitsValue base cs (acc * base + d)

/-- A decimal or 0x-prefixed hex number (R108). R108 does not say whether the digit separator `_` of R13 may stand in
an operand; here it may not (DESIGN CHOICE, log 25). -/
def number : List Char → Option Nat
  | [] => none
  | ['0', 'x'] => none
  | '0' :: 'x' :: ds => digitsValue 16 ds 0
  | ds => digitsValue 10 ds 0

/-- The words of a line between blanks; `cur` is the word being read, reversed. -/
def blankSplit : List Char → List Char → List (List Char)
  | [], cur => if cur.isEmpty then [] else [cur.reverse]
  | c :: cs, cur =>
    if c = ' ' then (if cur.isEmpty then blankSplit cs [] else cur.reverse :: blankSplit cs [])
    else blankSplit cs (c :: cur)

/-- The command a line is written for, its comment (from `;`) left off (R108; blanks: log 25); none where the line is
no command. -/
def assemble (line : List Char) : Option Instr :=
  match blankSplit (line.takeWhile (· ≠ ';')) [] with
  | [m] => asmTable.lookup m
  | [m, n] =>
    if m = ['S', 'C', 'H', 'E', 'D'] then
      match number n with
      | none => none
      | some b => if (Instr.sched b).wf then some (.sched b) else none
    else none
  | _ => none

end Sys2Proof.Machine
end

