-- ==== Sys2Proof/Machine/HostProgram.lean ====
section
/-! DEFINITION. The host-program statements of R109 as pieces of the agenda, for a block at BASE = c.base. The host's
own control flow (loops, conditions) is outside the block. -/

namespace Sys2Proof.Machine

/-- W32 off, v (R109). -/
def hostW32 (c : Config) (off : Nat) (v : Word) : Event := .write (c.base + off) .word v

/-- W8 off, v (R109). -/
def hostW8 (c : Config) (off : Nat) (v : Word) : Event := .write (c.base + off) .byte v

/-- R32 off (R109); the value is in `reply`. -/
def hostR32 (c : Config) (off : Nat) : Event := .read (c.base + off) .word

/-- R8 off (R109); the value is in `reply`. -/
def hostR8 (c : Config) (off : Nat) : Event := .read (c.base + off) .byte

/-- ISSUE i (R109). -/
def hostIssue (c : Config) (i : Instr) : List Event := [hostW32 c 0x00C (encode i)]

/-- WAIT (R109): n polls of STATUS that find the block busy, CORE's step, and the poll that finds it idle (log 26). -/
def hostWait (c : Config) (n : Nat) : List Event := List.replicate n (hostR32 c 0x008) ++ [.core, hostR32 c 0x008]

/-- DO i (R109). -/
def hostDo (c : Config) (n : Nat) (i : Instr) : List Event := hostIssue c i ++ hostWait c n

/-- ACK (R109): clears DONE, ERR and BUSERR. -/
def hostAck (c : Config) : List Event := [hostW32 c 0x008 0x0000000E]

/-- MSGW k, v (R109). -/
def hostMsgw (c : Config) (k : Nat) (v : Word) : List Event := [hostW32 c (0x40000000 + 4 * k) v]

/-- SETLEN n (R109). -/
def hostSetlen (c : Config) (n : BitVec 64) : List Event :=
  [hostW32 c 0x014 (n.extractLsb' 0 32), hostW32 c 0x018 (n.extractLsb' 32 32)]

end Sys2Proof.Machine
end

