-- ==== Sys2Proof/Tests/Slice0.lean ====
section
/-! SUPPORT. Tests of one step each, with the expected values of spec/95_test_vectors.md and the examples of the rules,
and a witness for the hypotheses of every statement of Certificates/Slice0/Obligations.lean. -/

namespace Sys2Proof.Tests

open Sys2Proof.Machine

set_option maxRecDepth 100000

/-! ## Helpers -/

/-- A test of the state a step answers. -/
def check (o : Host.Outcome State Fault Refusal) (f : State → Bool) : Bool :=
  match o with
  | .next s => f s
  | .fault _ => false
  | .refused _ => false

/-- The reset state with one event on the agenda. -/
def facing (e : Event) : State := { State.reset with agenda := [e] }

/-- The reset state, busy with the command word v. -/
def busyWith (v : Word) : State := (State.reset.accept v).refreshIrq

/-- The reset state with LEN. -/
def withLen (n : BitVec 64) : State := { State.reset with lenHi := n.extractLsb' 32 32, lenLo := n.extractLsb' 0 32 }

/-- The reset state with the bytes of M from 0 on and LEN their number. -/
def holding (bs : List Byte) : State := { withLen (BitVec.ofNat 64 bs.length) with mem := Memory.store [] 0 bs }

/-- The reset state with W[0..79] written. -/
def withW (f : Nat → Word) : State := { State.reset with w := Vector.ofFn fun i => .written (f i.val) }

/-- The reset state with HEX written. -/
def withHex (f : Nat → Byte) : State := { State.reset with hex := Vector.ofFn fun j => .written (f j.val) }

/-- "abc". -/
def abc : List Byte := [0x61, 0x62, 0x63]

/-- The "abc" block of V-P2, with PLEN = 64. -/
def abcBlock : State := { holding (abc ++ [0x80] ++ List.replicate 59 0 ++ [0x18]) with plen := 64 }

/-- The words of M from offset 64 b + 4 t on. -/
def wordAt (s : State) (o : Nat) : Word := (s.memRead4 o).1

/-! ## WellFormed -/

theorem test_wf_refuses_25_bit_block : (Instr.sched (2 ^ 24)).wf = false := by decide
theorem test_wf_accepts_24_bit_block : (Instr.sched (2 ^ 24 - 1)).wf = true := by decide
theorem test_cfg_refuses_no_block : ¬ (Config.wf ⟨0, 0⟩) := by decide
theorem test_cfg_refuses_too_many_blocks : ¬ (Config.wf ⟨2 ^ 24 + 1, 0⟩) := by decide
theorem test_cfg_refuses_misaligned_base : ¬ (Config.wf ⟨4, 2 ^ 30⟩) := by decide

/-! ## Decode: words written out from the format of R100 and the opcode map of R102 -/

theorem test_decode_nop : decode 0b00000000000000000000000000000000#32 = .ok .nop := by decide
theorem test_decode_init : decode 0b00000000000000000000000000000001#32 = .ok .init := by decide
theorem test_decode_pad : decode 0b00000000000000000000000000000010#32 = .ok .pad := by decide
theorem test_decode_sched : decode 0b00010010001101000101011000000011#32 = .ok (.sched 0x123456) := by decide
theorem test_decode_expand : decode 0b00000000000000000000000000000100#32 = .ok .expand := by decide
theorem test_decode_loadw : decode 0b00000000000000000000000000000101#32 = .ok .loadw := by decide
theorem test_decode_round : decode 0b00000000000000000000000000000110#32 = .ok .round := by decide
theorem test_decode_feedfwd : decode 0b00000000000000000000000000000111#32 = .ok .feedfwd := by decide
theorem test_decode_compress : decode 0b00000000000000000000000000001000#32 = .ok .compress := by decide
theorem test_decode_encode : decode 0b00000000000000000000000000001001#32 = .ok .encode := by decide
theorem test_decode_hash : decode 0b00000000000000000000000000001010#32 = .ok .hash := by decide
/-- V-X2. -/
theorem test_decode_lowest_reserved : decode 0x0000000B = .error .illegalOpcode := by decide
/-- V-X1: a reserved opcode comes before a nonzero imm24. -/
theorem test_decode_reserved_first : decode 0x000001FF = .error .illegalOpcode := by decide
/-- V-X3. -/
theorem test_decode_nop_operand : decode 0x00000100 = .error .badOperand := by decide
/-- R108. -/
theorem test_encode_sched : encode (.sched 0x123456) = 0x12345603 := by decide
/-- R108. -/
theorem test_assemble_sched :
    assemble ['S', 'C', 'H', 'E', 'D', ' ', '0', 'x', '1', '2', '3', '4', '5', '6', ' ', ';', 'b'] =
      some (.sched 0x123456) := by decide
theorem test_assemble_refuses_operand : assemble ['H', 'A', 'S', 'H', ' ', '1'] = none := by decide

/-! ## Commands -/

/-- V-X4. -/
theorem test_nop : check (step (State.reset.withFetchWord 32 0x0)) (fun s => s.status.word == 0x2 && s.errcmd == 0) = true := by
  decide
/-- V-X3. -/
theorem test_nop_operand :
    check (step (State.reset.withFetchWord 32 0x100)) (fun s => s.status.word == 0x206 && s.errcmd == 0x100) = true := by decide
/-- R174, V-C8. -/
theorem test_init : check (exec .init { State.reset with h := Vector.replicate 5 7, rcnt := 37 })
    (fun s => s.h[4] == 0xC3D2E1F0 && s.wk.a == 0x67452301 && s.rcnt == 0) = true := by decide
/-- V-P2, the "abc" block. -/
theorem test_pad_abc : check (exec .pad (holding abc)) (fun s => wordAt s 0 == 0x61626380 && wordAt s 4 == 0 &&
    wordAt s 60 == 0x18 && s.plen == 64 && s.mem.length == 64) = true := by decide
/-- V-P6: LEN = 2^61 is an overflow before it is a lack of capacity. -/
theorem test_pad_overflow : check (exec .pad (withLen 0x2000000000000000)) (fun s => s.status.word == 0x306 && s.plen == 0) = true := by
  decide
/-- V-S1. -/
theorem test_sched_abc : check (exec (.sched 0) abcBlock) (fun s => s.wElem 0 == .written 0x61626380 &&
    s.wElem 16 == .written 0xC2C4C700 && s.wElem 79 == .written 0x822E0879) = true := by decide
/-- V-S5. -/
theorem test_sched_range : check (exec (.sched 2) { State.reset with plen := 128 })
    (fun s => s.status.word == 0x506 && s.errcmd == 0x203) = true := by decide
/-- V-S3, W[t] = t. -/
theorem test_expand : check (exec .expand (withW fun t => BitVec.ofNat 32 t))
    (fun s => s.wElem 15 == .written 15 && s.wElem 16 == .written 0xE && s.wElem 21 == .written 0x12) = true := by decide
/-- V-C8: LOADW at RCNT = 37. -/
theorem test_loadw : check (exec .loadw { State.reset with h := #v[1, 2, 3, 4, 5], rcnt := 37 })
    (fun s => s.wk == ⟨1, 2, 3, 4, 5⟩ && s.rcnt == 0 && s.h[0] == 1) = true := by decide
/-- V-C4, row 0. -/
theorem test_round_first : check (exec .round (withW fun _ => 0x61626380)) (fun s => s.wk ==
    ⟨0x0116FC33, 0x67452301, 0x7BF36AE2, 0x98BADCFE, 0x10325476⟩ && s.rcnt == 1) = true := by decide
/-- V-C3, the last round of stage 2, A..E all 0. -/
theorem test_round_band : check (exec .round { withW (fun _ => 0) with rcnt := 59, wk := ⟨0, 0, 0, 0, 0⟩ })
    (fun s => s.wk == ⟨0x8F1BBCDC, 0, 0, 0, 0⟩ && s.rcnt == 60) = true := by decide
/-- V-X6. -/
theorem test_round_overrun : check (exec .round { State.reset with rcnt := 80 })
    (fun s => s.status.word == 0x606 && s.errcmd == 0x6 && s.rcnt == 80) = true := by decide
/-- V-C6: the sum of IV and the last row. -/
theorem test_feedfwd : check (exec .feedfwd { State.reset with
      rcnt := 80, wk := ⟨0x72F480ED, 0x6E9D9F84, 0x999AE2F1, 0x852DC41A, 0xEC052519⟩ })
    (fun s => s.h == #v[0xDA39A3EE, 0x5E6B4B0D, 0x3255BFEF, 0x95601890, 0xAFD80709] && s.wk.e == 0xAFD80709 && s.rcnt == 0)
    = true := by decide
/-- V-X7. -/
theorem test_feedfwd_incomplete : check (exec .feedfwd { State.reset with rcnt := 5 }) (fun s => s.status.word == 0x706) = true := by
  decide
/-- V-C6, with W = V-S2. -/
theorem test_compress : check (exec .compress (withW fun t => (Reference.schedule (Reference.pad []) 0).getD t 0))
    (fun s => s.h == #v[0xDA39A3EE, 0x5E6B4B0D, 0x3255BFEF, 0x95601890, 0xAFD80709] && s.rcnt == 0) = true := by decide
/-- V-E1, row 3. -/
theorem test_encode : check (exec .encode { State.reset with h := #v[0x01234567, 0x89ABCDEF, 0xDEADBEEF, 0x0000000A, 0xF0000000] })
    (fun s => (s.readQuad s.hexElem 8).1 == 0x38396162 && (s.readQuad s.hexElem 28).1 == 0x30303061 &&
      s.hexElem 32 == .written 0x66) = true := by decide
/-- V-E2: 'a' is the first character of the "abc" digest. -/
theorem test_encode_case : check (exec .encode { State.reset with h := #v[0xA9993E36, 0, 0, 0, 0] }) (fun s =>
    s.hexElem 0 == .written 0x61 && s.hexElem 1 == .written 0x39) = true := by decide
/-- V-H2, P1: HASH of "abc". -/
theorem test_hash_abc : check (exec .hash (holding abc)) (fun s => s.h == #v[0xA9993E36, 0x4706816A, 0xBA3E2571, 0x7850C26C, 0x9CD0D89D]
    && s.hexElem 39 == .written 0x64 && s.status.word == 2 && s.plen == 64) = true := by decide
/-- V-H17: HASH past the buffer changes nothing. -/
theorem test_hash_capacity : check (exec .hash (withLen 248)) (fun s => s.status.word == 0x406 && s.errcmd == 0xA && s.plen == 0)
    = true := by decide

/-! ## Accesses -/

/-- V-B1. -/
theorem test_read_misaligned : check (step (facing (.read 0x002 .word))) (fun s => s.reply == some (.read 0 .error) &&
    s.status.word == 0x8) = true := by decide
/-- V-B9, V-B11. -/
theorem test_read_id : check (step (facing (.read 0x000 .word))) (fun s => s.reply == some (.read 0x53484131 .okay)) = true := by
  decide
/-- V-B13. -/
theorem test_second_command_refused :
    check (step { busyWith 0xA with agenda := [.write 0x00C .word 0] })
      (fun s => s.reply == some (.write .error) && s.pending == some 0xA) = true := by decide
/-- V-B14. -/
theorem test_ctrl_write_busy : check (step { busyWith 0 with agenda := [.write 0x004 .word 1] })
    (fun s => s.reply == some (.write .okay) && s.ctrl.ie) = true := by decide
/-- V-B19. -/
theorem test_msg_lanes : check (step (facing (.write 0x40000000 .word 0x61626300)))
    (fun s => s.mem.find 0 == .written 0x61 && s.mem.find 3 == .written 0) = true := by decide
/-- V-B7. -/
theorem test_read_past_m : check (step (facing (.read 0x40000100 .byte))) (fun s => s.reply == some (.read 0 .error)) = true := by
  decide

/-! ## Reset (R280) -/

theorem test_reset_mem_canonical : State.reset.mem.wf := List.Pairwise.nil
theorem test_reset_status : State.reset.status.word = 0 := by decide
theorem test_reset_event : check (step { busyWith 0xA with agenda := [.reset] }) (fun s => s.status.word == 0 && s.pending == none)
    = true := by decide

/-! ## Witnesses: states and operands that meet the hypotheses of each statement, at the edges of its ranges -/

/-- An outcome that is a next state, as an equation. -/
theorem next_of_check {o : Host.Outcome State Fault Refusal} (h : check o (fun _ => true) = true) : ∃ t, o = .next t := by
  cases o with
  | next t => exact ⟨t, rfl⟩
  | fault r => simp [check] at h
  | refused r => simp [check] at h

theorem witness_DecodeEncodeAgree :
    (Instr.sched (2 ^ 24 - 1)).wf = true ∧ Instr.nop.wf = true ∧ decode 0xFFFFFF03 = .ok (.sched 0xFFFFFF) := by decide

theorem witness_DecodeChecksInOrder :
    0x0A < (0x0000000B : Word).toNat % 256 ∧
    ((0x0000010A : Word).toNat % 256 ≤ 0x0A ∧ (0x0000010A : Word).toNat % 256 ≠ 0x03 ∧ (0x0000010A : Word).toNat / 256 ≠ 0) ∧
    (0xFFFFFF03 : Word).toNat % 256 = 0x03 ∧
    ((0x0000000A : Word).toNat % 256 ≤ 0x0A ∧ (0x0000000A : Word).toNat % 256 ≠ 0x03 ∧ (0x0000000A : Word).toNat / 256 = 0) := by
  decide

theorem witness_ReservedEncodingsAreErrors :
    ((facing (.write 0x00C .word 0x0B)).status.busy = false ∧
      (facing (.write 0x00C .word 0x0B)).agenda = .write ((facing (.write 0x00C .word 0x0B)).cfg.base + 0x00C) .word 0x0B :: []) ∧
    ((busyWith 0x0B).CoreHasTurn ∧ (busyWith 0x0B).pending = some 0x0B ∧ 0x0B ≤ (0x0B : Word).toNat % 256) ∧
    ((busyWith 0x10A).CoreHasTurn ∧ (busyWith 0x10A).pending = some 0x10A ∧ (0x10A : Word).toNat % 256 ≤ 0x0A ∧
      (0x10A : Word).toNat % 256 ≠ 0x03 ∧ (0x10A : Word).toNat / 256 ≠ 0) :=
  ⟨by decide, ⟨.inl rfl, by decide⟩, ⟨.inl rfl, by decide⟩⟩

theorem witness_CoreStepRunsPendingCommand :
    ((busyWith 2).CoreHasTurn ∧ (busyWith 2).pending = some 2 ∧ decode 2 = .ok .pad) ∧
    ({ busyWith 0xFF with agenda := [.core] }.CoreHasTurn ∧ { busyWith 0xFF with agenda := [.core] }.pending = some 0xFF ∧
      decode 0xFF = .error .illegalOpcode) ∧
    (State.reset.CoreHasTurn ∧ State.reset.pending = none) :=
  ⟨⟨.inl rfl, by decide⟩, ⟨.inr rfl, by decide⟩, ⟨.inl rfl, rfl⟩⟩

theorem witness_CompletionRecordsFirstError :
    ((busyWith 0).CoreHasTurn ∧ (busyWith 0).pending = some 0 ∧ expectedError 0 (busyWith 0) = none) ∧
    ((busyWith 0xFF).CoreHasTurn ∧ (busyWith 0xFF).pending = some 0xFF ∧
      expectedError 0xFF (busyWith 0xFF) = some .illegalOpcode) :=
  ⟨⟨.inl rfl, by decide⟩, ⟨.inl rfl, by decide⟩⟩

/-- Every cause of R240 at the edge of its condition. -/
theorem witness_ErrorsArePrecise :
    (busyWith 0x0B).CoreHasTurn ∧ (busyWith 0x0B).pending = some 0x0B ∧
    expectedError 0x0B State.reset = some .illegalOpcode ∧ expectedError 0x10A State.reset = some .badOperand ∧
    expectedError 2 (withLen 0x2000000000000000) = some .lenOverflow ∧
    expectedError 0xA (withLen 0x1FFFFFFFFFFFFFFF) = some .capacity ∧ expectedError 2 (withLen 248) = some .capacity ∧
    expectedError 2 (withLen 247) = none ∧ expectedError 3 State.reset = some .blockRange ∧
    expectedError 6 { State.reset with rcnt := 80 } = some .roundOverrun ∧
    expectedError 6 { State.reset with rcnt := 79 } = none ∧
    expectedError 7 { State.reset with rcnt := 79 } = some .roundIncomplete ∧
    expectedError 7 { State.reset with rcnt := 80 } = none := ⟨.inl rfl, by decide⟩

theorem witness_BusErrorAndCompletionCommute :
    (busyWith 0).CoreHasTurn ∧ (busyWith 0).pending.isSome = true ∧ ∃ t, step (busyWith 0) = .next t :=
  ⟨.inl rfl, rfl, next_of_check (by decide)⟩

theorem witness_ResetMeetsInvariant : Config.wf ⟨1, 0⟩ ∧ Config.wf ⟨2 ^ 24, 2 ^ 31⟩ := by decide

theorem witness_StepKeepsInvariant : (State.resetOf ⟨1, 0⟩).Inv ∧ ∃ t, step (State.resetOf ⟨1, 0⟩) = .next t :=
  ⟨⟨by decide, List.Pairwise.nil, by simp [State.resetOf], rfl, by simp [State.resetOf], rfl, by decide, by decide,
    by decide, by decide⟩, next_of_check (by decide)⟩

theorem witness_ParametersNeverChange : ∃ t, step (busyWith 1) = .next t := next_of_check (by decide)

/-- A step that changes each register the statement speaks of. -/
theorem witness_OnlyNamedStepsWriteEachRegister :
    check (step (busyWith 0x0B)) (fun t => t.errcmd != (busyWith 0x0B).errcmd) = true ∧
    check (step (facing (.write 0x014 .word 5))) (fun t => t.len != 0) = true ∧
    check (step (facing (.write 0x018 .word 5))) (fun t => t.len != 0) = true ∧
    check (step (busyWith 2)) (fun t => t.plen != 0) = true ∧
    check (step (busyWith 6)) (fun t => t.rcnt != 0) = true ∧
    check (step (busyWith 9)) (fun t => t.hex != State.reset.hex) = true ∧
    (busyWith 2).agenda.head? ≠ some .reset := by decide

theorem witness_AcceptedCommandCompletes :
    { busyWith 2 with agenda := [.read 0 .word, .write 0 .word 0] }.pending.isSome = true := by decide

theorem witness_ResetSetsEveryRegister : { busyWith 2 with agenda := [.reset, .core] }.agenda = .reset :: [.core] := rfl

theorem witness_AccessOutsideWindowHasNoEffect :
    ((facing (.read (2 ^ 31) .word)).cfg.base + 2 ^ 31 ≤ 2 ^ 31 ∧
      (facing (.read (2 ^ 31) .word)).agenda = .read (2 ^ 31) .word :: []) ∧
    (2 ^ 31 - 1 < { facing (.write (2 ^ 31 - 1) .byte 0) with cfg := ⟨4, 2 ^ 31⟩ }.cfg.base ∧
      { facing (.write (2 ^ 31 - 1) .byte 0) with cfg := ⟨4, 2 ^ 31⟩ }.agenda = .write (2 ^ 31 - 1) .byte 0 :: []) := by
  decide

theorem witness_IllegalSizeOrAlignmentIsBusError :
    (0x002 < 2 ^ 31 ∧ 0x002 % 4 ≠ 0 ∧
      (facing (.read 0x002 .word)).agenda = .read ((facing (.read 0x002 .word)).cfg.base + 0x002) .word :: []) ∧
    (¬ inByteRegion State.reset.cfg 0x07F ∧ ¬ inByteRegion State.reset.cfg 0x0A8 ∧
      ¬ inByteRegion State.reset.cfg (0x40000000 + 256)) ∧
    (facing (.write 0x0A8 .byte 1)).agenda = .write ((facing (.write 0x0A8 .byte 1)).cfg.base + 0x0A8) .byte 1 :: [] := by
  unfold inByteRegion; decide

theorem witness_ReadsAreRefusedOrHaveNoEffect :
    (facing (.read 0x23C .word)).agenda = .read ((facing (.read 0x23C .word)).cfg.base + 0x23C) .word :: [] ∧
    readAllowed State.reset.cfg 0x23C .word ∧ readAllowed State.reset.cfg 0x0A7 .byte ∧
    readAllowed State.reset.cfg 0x400000FF .byte ∧
    ¬ readAllowed State.reset.cfg 0x240 .word ∧ ¬ readAllowed State.reset.cfg 0x028 .word ∧
    ¬ readAllowed State.reset.cfg 0x0A8 .byte ∧ ¬ readAllowed State.reset.cfg 0x40000100 .byte := by
  refine ⟨rfl, ?_, ?_, ?_, ?_, ?_, ?_, ?_⟩ <;> unfold readAllowed inWordRegion inByteRegion <;> decide

theorem witness_WritesAreRefusedExactly :
    (facing (.write 0x018 .word 1)).agenda = .write ((facing (.write 0x018 .word 1)).cfg.base + 0x018) .word 1 :: [] ∧
    writeAllowed State.reset 0x018 .word ∧ writeAllowed (busyWith 0) 0x008 .word ∧ ¬ writeAllowed State.reset 0x01C .word ∧
    ¬ writeAllowed State.reset 0x080 .byte ∧ ¬ writeAllowed (busyWith 0) 0x00C .word := by
  refine ⟨rfl, ?_, ?_, ?_, ?_, ?_⟩ <;> unfold writeAllowed readOnlyOffset readAllowed inWordRegion inByteRegion <;> decide

theorem witness_CommandAcceptance :
    ((facing (.write 0x00C .word 0xFF)).agenda = .write ((facing (.write 0x00C .word 0xFF)).cfg.base + 0x00C) .word 0xFF :: [] ∧
      (facing (.write 0x00C .word 0xFF)).status.busy = false) ∧
    { busyWith 0 with agenda := [.write 0x00C .word 1] }.status.busy = true := by decide

theorem witness_StatusWriteClearsBits :
    (facing (.write 0x008 .word 0xE)).agenda = .write ((facing (.write 0x008 .word 0xE)).cfg.base + 0x008) .word 0xE :: [] := rfl

theorem witness_ControlWriteSetsInterruptEnable :
    (facing (.write 0x004 .word 1)).agenda = .write ((facing (.write 0x004 .word 1)).cfg.base + 0x004) .word 1 :: [] := rfl

theorem witness_InterruptLevelAndClearing :
    ((busyWith 0).CoreHasTurn ∧ (busyWith 0).pending = some 0 ∧ ∃ t, step (busyWith 0) = .next t) ∧
    ((0x2 : Word).getLsbD 1 = true ∧ (0 : Word).getLsbD 0 = false ∧ State.reset.status.busy = false) ∧
    (¬ readAllowed State.reset.cfg 0x028 .word ∧ (facing (.read 0x028 .word)).irq = false ∧ (facing (.read 0x028 .word)).Inv) ∧
    ¬ writeAllowed State.reset 0x000 .word :=
  ⟨⟨.inl rfl, rfl, next_of_check (by decide)⟩, by decide, ⟨by unfold readAllowed inWordRegion inByteRegion; decide, rfl,
      ⟨by decide, List.Pairwise.nil, by simp [facing, State.reset, State.resetOf], rfl,
        by simp [facing, State.reset, State.resetOf], rfl, by decide, by decide, by decide, by decide⟩⟩,
    by unfold writeAllowed readOnlyOffset readAllowed inWordRegion inByteRegion; decide⟩

theorem witness_BusyReadsAreExactOrFree :
    { busyWith 0 with agenda := [.read 0x024 .word] }.status.busy = true ∧ readAllowed (busyWith 0).cfg 0x024 .word ∧
    readAllowed (busyWith 0).cfg 0x010 .word ∧ readAllowed (busyWith 0).cfg 0x080 .byte ∧
    { busyWith 0 with agenda := [.read 0x024 .word] }.agenda = .read ((busyWith 0).cfg.base + 0x024) .word :: [] := by
  refine ⟨rfl, ?_, ?_, ?_, rfl⟩ <;> unfold readAllowed inWordRegion inByteRegion <;> decide

theorem witness_RegisterWritesStoreOneRegister :
    (facing (.write 0x23C .word 1)).status.busy = false ∧
    (facing (.write 0x23C .word 1)).agenda = .write ((facing (.write 0x23C .word 1)).cfg.base + 0x23C) .word 1 :: [] ∧
    0x23C = 0x100 + 4 * (79 : Fin 80).val ∧ 0x050 = 0x040 + 4 * (4 : Fin 5).val := by decide

theorem witness_RegisterReadsReturnTheRegister :
    { withW (fun _ => 7) with agenda := [.read 0x23C .word] }.status.busy = false ∧
    { withW (fun _ => 7) with agenda := [.read 0x23C .word] }.agenda = .read (State.reset.cfg.base + 0x23C) .word :: [] ∧
    0x23C = 0x100 + 4 * (79 : Fin 80).val ∧ (withW fun _ => 7).w[79] = .written 7 ∧ State.reset.w[79] = .unwritten := by
  decide

theorem witness_MessageBufferWrites :
    ((facing (.write 0x400000FF .byte 1)).status.busy = false ∧ (facing (.write 0x400000FF .byte 1)).cfg.wf ∧
      255 < (facing (.write 0x400000FF .byte 1)).cfg.bufBytes ∧
      (facing (.write 0x400000FF .byte 1)).agenda = .write (State.reset.cfg.base + 0x40000000 + 255) .byte 1 :: []) ∧
    (252 % 4 = 0 ∧
      (facing (.write 0x400000FC .word 1)).agenda = .write (State.reset.cfg.base + 0x40000000 + 252) .word 1 :: []) := by
  decide

theorem witness_MessageBufferReads :
    ({ holding abc with agenda := [.read 0x40000002 .byte] }.status.busy = false ∧ (holding abc).cfg.wf ∧
      2 < (holding abc).cfg.bufBytes ∧
      { holding abc with agenda := [.read 0x40000002 .byte] }.agenda = .read (State.reset.cfg.base + 0x40000000 + 2) .byte :: []) ∧
    ((holding abc).mem.find 2 = .written 0x63 ∧ (holding abc).mem.find 255 = .unwritten) ∧
    { holding abc with agenda := [.read 0x40000000 .word] }.agenda = .read (State.reset.cfg.base + 0x40000000 + 0) .word :: [] := by
  decide

theorem witness_HexReads :
    ({ withHex (fun _ => 0x61) with agenda := [.read 0x0A7 .byte] }.agenda = .read (State.reset.cfg.base + 0x080 + 39) .byte :: [] ∧
      (withHex fun _ => 0x61).hexElem 39 = .written 0x61 ∧ State.reset.hexElem 39 = .unwritten) ∧
    ({ withHex (fun _ => 0x61) with agenda := [.read 0x0A4 .word] }.agenda = .read (State.reset.cfg.base + 0x080 + 4 * 9) .word :: [] ∧
      (withHex fun _ => 0x61).hexElem (4 * 9 + 3) = .written 0x61) ∧
    (facing (.write 0x080 .byte 1)).agenda = .write (State.reset.cfg.base + 0x080 + 0) .byte 1 :: [] := by decide

theorem witness_NopOnlyCompletes : (1 : BitVec 24) ≠ 0 ∧ (0xFFFFFF : BitVec 24) ≠ 0 := by decide

theorem witness_InitLoadsTheInitialDigest : ∃ t, exec .init State.reset = .next t := next_of_check (by decide)

theorem witness_RoundPerformsOneRound :
    ({ withW (fun _ => 7) with rcnt := 79 }.rcnt.toNat < 80 ∧ { withW (fun _ => 7) with rcnt := 79 }.wElem 79 = .written 7) ∧
    (State.reset.rcnt.toNat < 80 ∧ State.reset.wElem 0 = .unwritten ∧ Config.draw 0 = Config.draw State.reset.draws) ∧
    { State.reset with rcnt := 80 }.rcnt.toNat = 80 := ⟨by decide, ⟨by decide, by decide, rfl⟩, by decide⟩

theorem witness_FeedfwdAddsTheSnapshot :
    { State.reset with rcnt := 80 }.rcnt.toNat = 80 ∧ { State.reset with rcnt := 79 }.rcnt.toNat ≠ 80 ∧
    State.reset.rcnt.toNat ≠ 80 ∧ ∃ t, exec .feedfwd { State.reset with rcnt := 80 } = .next t :=
  ⟨by decide, by decide, by decide, next_of_check (by decide)⟩

theorem witness_CompressComputesRounds80 : ∀ i, i < 80 → (withW fun _ => 7).wElem i ≠ .unwritten := by decide

theorem witness_PadWritesThePadding :
    (State.reset.cfg.wf ∧ State.reset.PadFits) ∧ (withLen 247).PadFits ∧ (withLen 55).PadFits ∧ (withLen 56).PadFits := by
  unfold State.PadFits; decide

theorem witness_PadAndHashErrors :
    2 ^ 61 ≤ (withLen 0x2000000000000000).len.toNat ∧
    ((withLen 0x1FFFFFFFFFFFFFFF).len.toNat < 2 ^ 61 ∧
      (withLen 248).cfg.bufBytes < 64 * (((withLen 248).len.toNat + 8) / 64 + 1) ∧ (withLen 248).len.toNat < 2 ^ 61) := by decide

theorem witness_PadIsIdempotent :
    (holding abc).PadFits ∧ (holding abc).mem.wf ∧ ∃ t, exec .pad (holding abc) = .next t :=
  ⟨by unfold State.PadFits; decide, by decide, next_of_check (by decide)⟩

theorem witness_PaddedLengthLaws : (55 % 64 ≤ 55 ∧ 56 ≤ 56 % 64 ∧ 56 ≤ 63 % 64 ∧ 64 % 64 ≤ 55) ∧ Config.wf ⟨1, 0⟩ ∧
    (128 % 64 = 0 ∧ 119 + 9 ≤ 128) := by decide

theorem witness_SchedBuildsTheSchedule :
    1 < { State.reset with plen := 128 }.plen.toNat / 64 ∧ { State.reset with plen := 128 }.plen.toNat / 64 ≤ 2 ∧
    State.reset.plen.toNat / 64 ≤ 0 ∧ (∀ o, 64 * 0 ≤ o → o < 64 * 0 + 64 → abcBlock.mem.find o ≠ .unwritten) ∧
    abcBlock.mem.find (64 * 0 + 4 * 15 + 3) = .written 0x18 := by
  refine ⟨by decide, by decide, by decide, fun o _ ho => ?_, by decide⟩
  have h : ∀ o, o < 64 → abcBlock.mem.find o ≠ .unwritten := by decide
  exact h o ho

theorem witness_ExpandFollowsTheRecurrence : ∀ i, i < 16 → (withW fun _ => 7).wElem i ≠ .unwritten := by decide

theorem witness_SchedEqualsLoadThenExpand :
    0 < abcBlock.plen.toNat / 64 ∧
    ∀ k, k < 64 → abcBlock.mem.find (64 * 0 + k) = .written ((abc ++ [0x80] ++ List.replicate 59 0 ++ [0x18]).getD k 0) := by
  decide

theorem witness_ExpansionIsLinear :
    ∀ i, i < 16 → (withW fun _ => 5).wElem i = .written 5 ∧ (withW fun _ => 3).wElem i = .written 3 ∧
      (withW fun _ => 6).wElem i = .written (5 ^^^ 3) := by decide

theorem witness_HexTextDeterminesDigest : ∃ t1 t2, exec .encode State.reset = .next t1 ∧
    exec .encode { State.reset with rcnt := 5 } = .next t2 ∧ t1.hex = t2.hex := ⟨_, _, rfl, rfl, rfl⟩

theorem witness_HashComputesSha1 :
    (holding abc).cfg.wf ∧ (holding abc).PadFits ∧ (holding abc).HoldsMessage abc :=
  ⟨by decide, by unfold State.PadFits; decide, by unfold State.HoldsMessage; decide⟩

/-- The empty message, the lower edge. -/
theorem witness_HashComputesSha1_empty : State.reset.PadFits ∧ State.reset.HoldsMessage [] :=
  ⟨by unfold State.PadFits; decide, by unfold State.HoldsMessage; decide⟩

theorem witness_HashEqualsItsComponents : (withLen 247).cfg.wf ∧ (withLen 247).PadFits :=
  ⟨by decide, by unfold State.PadFits; decide⟩

/-- Two states that hold the same message and differ elsewhere. -/
theorem witness_HashDependsOnMessageOnly :
    ((holding abc).cfg.wf ∧ (holding abc).mem.wf ∧ (holding abc).PadFits ∧ (holding abc).HoldsMessage abc) ∧
    { holding abc with rcnt := 37, cfg := ⟨1, 0⟩ }.HoldsMessage abc ∧ { holding abc with rcnt := 37, cfg := ⟨1, 0⟩ }.PadFits ∧
    ∃ t, exec .hash (holding abc) = .next t :=
  ⟨⟨by decide, by decide, by unfold State.PadFits; decide, by unfold State.HoldsMessage; decide⟩,
    by unfold State.HoldsMessage; decide, by unfold State.PadFits; decide, next_of_check (by decide)⟩

theorem witness_HashCompletesOnUnwrittenMessages :
    (withLen 3).cfg.wf ∧ (withLen 3).PadFits ∧ (withLen 3).mem.find 0 = .unwritten :=
  ⟨by decide, by unfold State.PadFits; decide, by decide⟩

theorem witness_RoundCounterCountsRounds : 80 ≤ 80 := by decide

theorem witness_FrameOfCommandsThatStoreNothing :
    Instr.round ≠ .pad ∧ Instr.round ≠ .hash ∧ (∃ t, exec .round State.reset = .next t) ∧
      ∃ t, exec .expand State.reset = .next t :=
  ⟨by decide, by decide, next_of_check (by decide), next_of_check (by decide)⟩

theorem witness_FrameOfPad : (∃ t, exec .pad (withLen 3) = .next t) ∧ 2 < (withLen 3).len.toNat ∧ padLength 3 ≤ 64 :=
  ⟨next_of_check (by decide), by decide, by decide⟩

theorem witness_FrameOfHash : (∃ t, exec .hash (withLen 3) = .next t) ∧ 2 < (withLen 3).len.toNat ∧ padLength 3 ≤ 64 :=
  ⟨next_of_check (by decide), by decide, by decide⟩

end Sys2Proof.Tests
end

section
/-! The laws of the padded length: O43 (R10, R130, R134). -/

namespace Sys2Proof.Machine

/-- A multiple of 64 holds the padded message exactly when it holds the message with the 9 bytes padding needs (R130). -/
theorem padLength_le_iff (L : Nat) {n : Nat} (hn : n % 64 = 0) : padLength L ≤ n ↔ L + 9 ≤ n := by
  constructor
  · exact (padLength_bounds L).1.trans
  · intro h
    have hblocks : (L + 8) / 64 < n / 64 := by omega
    unfold padLength; omega

theorem padLength_div (L : Nat) : padLength L / 64 = (L + 8) / 64 + 1 :=
  Nat.mul_div_cancel_left _ (by decide)

/-- The padding fits in the last block of the message (R134). -/
theorem padLength_div_of_le {L : Nat} (h : L % 64 ≤ 55) : padLength L / 64 = L / 64 + 1 := by
  rw [padLength_div]; omega

/-- The padding runs into an extra block (R134). -/
theorem padLength_div_of_ge {L : Nat} (h : 56 ≤ L % 64) : padLength L / 64 = L / 64 + 2 := by
  rw [padLength_div]; omega

theorem Config.bufBytes_mod (c : Config) : c.bufBytes % 64 = 0 := Nat.mul_mod_right 64 c.bufBlocks

theorem Config.le_bufBytes {c : Config} (h : c.wf) : 64 ≤ c.bufBytes := Nat.le_mul_of_pos_right 64 h.1

/-- The longest message a buffer can pad (R10); the buffer's one block at least keeps `BUF_BYTES - 9` from truncating. -/
theorem padLength_le_bufBytes_iff (L : Nat) {c : Config} (h : c.wf) : padLength L ≤ c.bufBytes ↔ L ≤ c.bufBytes - 9 := by
  have hblock := Config.le_bufBytes h
  rw [padLength_le_iff L (Config.bufBytes_mod c), Nat.le_sub_iff_add_le (by omega)]

/-- Settles O43: among the multiples of 64, those that hold P(L) are those from L + 9 on; leastness and the buffer's
bound are both instances of this. -/
theorem paddedLengthLaws : Obligations.PaddedLengthLaws := by
  intro L
  obtain ⟨hroom, -, hmul⟩ := padLength_bounds L
  exact ⟨hmul, hroom, fun _ hn => (padLength_le_iff L hn).mpr, padLength_div_of_le, padLength_div_of_ge,
    fun _ hc => padLength_le_bufBytes_iff L hc⟩

end Sys2Proof.Machine
end

section
/-! What a turn of CORE can do, said once in the spec's terms: the word of a decoded command is its encoding, and the
first check that fails is the error R240 and R244 name. -/

namespace Sys2Proof

theorem plainRow_eq_some {op : Nat} {i : Instr} (h : plainRow op = some i) :
    i.opcode.toNat = op ∧ i.imm24 = 0 ∧ i.wf = true := by
  unfold plainRow at h
  split at h <;> simp only [Option.some.injEq, reduceCtorEq] at h <;> subst h <;> exact ⟨rfl, rfl, rfl⟩

theorem plainRow_ne_none {op : Nat} (hle : op ≤ 0x0A) (hne : op ≠ 0x03) : plainRow op ≠ none := by
  interval_cases op <;> simp_all [plainRow]

/-- Decoding loses nothing: a decoded word is its command's encoding, with an operand in range (R101, R106). -/
theorem wf_and_encode_of_decode {cmd : Word} {i : Instr} (h : decode cmd = .ok i) : i.wf = true ∧ encode i = cmd := by
  have hlt := cmd.isLt
  suffices hi : i.wf = true ∧ i.imm24.toNat = cmd.toNat / 256 ∧ i.opcode.toNat = cmd.toNat % 256 by
    obtain ⟨hwf, himm, hop⟩ := hi
    refine ⟨hwf, BitVec.eq_of_toNat_eq ?_⟩
    rw [toNat_encode, himm, hop]; omega
  rw [decode_eq] at h
  split_ifs at h with hres hsched himm
  · obtain rfl : Instr.sched (cmd.toNat / 256) = i := by simpa using h
    exact ⟨by simp only [Instr.wf, decide_eq_true_eq]; omega, Nat.mod_eq_of_lt (by omega), hsched.symm⟩
  · cases hrow : plainRow (cmd.toNat % 256) with
    | none => simp [hrow] at h
    | some j =>
      obtain rfl : j = i := by simpa [hrow] using h
      obtain ⟨hop, hzero, hwf⟩ := plainRow_eq_some hrow
      exact ⟨hwf, by rw [hzero, not_not.mp himm]; rfl, hop⟩

/-- The opcode and the operand an encoding holds (R100). -/
theorem toNat_encode_fields (i : Instr) :
    (encode i).toNat % 2 ^ 8 = i.opcode.toNat ∧ (encode i).toNat / 2 ^ 8 = i.imm24.toNat := by
  have := i.opcode.isLt
  rw [toNat_encode]
  omega

end Sys2Proof

namespace Sys2Proof.Machine

/-- The first of PAD's two checks that fails gives its error (R131). -/
theorem padBody_eq_error {s : State} {e : CmdError} (h : padBody s = .error e) :
    (2 ^ 61 ≤ s.len.toNat ∧ e = .lenOverflow) ∨
    (s.len.toNat < 2 ^ 61 ∧ s.cfg.bufBytes < padLength s.len.toNat ∧ e = .capacity) := by
  rcases padBody_cases s with ⟨hlen, h'⟩ | ⟨hlen, hcap, h'⟩ | ⟨-, h'⟩ <;> rw [h'] at h <;>
    simp only [Except.error.injEq, reduceCtorEq] at h
  · exact .inl ⟨hlen, h.symm⟩
  · exact .inr ⟨hlen, hcap, h.symm⟩

/-- HASH has PAD's errors and no other (R221). -/
theorem hashBody_eq_error {s : State} {e : CmdError} (h : hashBody s = .error e) : padBody s = .error e := by
  unfold hashBody at h
  cases hp : padBody s with
  | error e' => simpa [hp] using h
  | ok t => simp [hp] at h

theorem schedBody_eq_error {b : Nat} {s : State} {e : CmdError} (h : schedBody b s = .error e) :
    s.blocks ≤ b ∧ e = .blockRange := by
  unfold schedBody at h
  split_ifs at h with hrange
  exact ⟨hrange, (Except.error.inj h).symm⟩

theorem roundBody_eq_error {s : State} {e : CmdError} (h : roundBody s = .error e) :
    80 ≤ s.rcnt.toNat ∧ e = .roundOverrun := by
  unfold roundBody at h
  split_ifs at h with hover
  exact ⟨hover, (Except.error.inj h).symm⟩

theorem feedfwdBody_eq_error {s : State} {e : CmdError} (h : feedfwdBody s = .error e) :
    s.rcnt.toNat ≠ 80 ∧ e = .roundIncomplete := by
  unfold feedfwdBody at h
  split_ifs at h with hearly
  exact ⟨hearly, (Except.error.inj h).symm⟩

/-- A word decode refuses ends with decode's error (R106, R244). -/
theorem expectedError_of_decode_error {cmd : Word} {e : CmdError} (s : State) (h : decode cmd = .error e) :
    expectedError cmd s = some e := by
  rw [decode_eq] at h
  unfold expectedError
  split_ifs at h with hres hsched himm
  · obtain rfl : CmdError.illegalOpcode = e := by simpa using h
    exact if_pos hres
  · obtain rfl : CmdError.badOperand = e := by simpa using h
    exact (if_neg hres).trans (if_pos ⟨hsched, himm⟩)
  · cases hrow : plainRow (cmd.toNat % 256) with
    | none => exact absurd hrow (plainRow_ne_none (by omega) hsched)
    | some i => simp [hrow] at h

/-- The error the spec's table names for PAD or HASH is that of PAD's first failing check (R131, R244). -/
theorem expectedError_encode_of_padBody_error {i : Instr} {s : State} {e : CmdError} (hi : i = .pad ∨ i = .hash)
    (h : padBody s = .error e) : expectedError (encode i) s = some e := by
  obtain ⟨hop, himm⟩ := toNat_encode_fields i
  have hops : i.imm24.toNat = 0 ∧ (i.opcode.toNat = 0x02 ∨ i.opcode.toNat = 0x0A) := by
    rcases hi with rfl | rfl <;> decide
  simp only [expectedError, hop, himm, ← State.len_toNat]
  rw [if_neg (by omega), if_neg (by omega)]
  rcases padBody_eq_error h with ⟨hlen, rfl⟩ | ⟨hlen, hcap, rfl⟩
  · exact if_pos ⟨hops.2, hlen⟩
  · rw [if_neg (by omega)]
    exact if_pos ⟨hops.2, hcap⟩

/-- A command whose check fails ends with that check's error (R240, R244). -/
theorem expectedError_encode_of_body_error {i : Instr} {s : State} {e : CmdError} (hwf : i.wf = true)
    (h : Instr.body i s = .error e) : expectedError (encode i) s = some e := by
  obtain ⟨hop, himm⟩ := toNat_encode_fields i
  cases i with
  | nop | init | expand | loadw | compress | encode => simp [Instr.body] at h
  | pad => exact expectedError_encode_of_padBody_error (.inl rfl) h
  | hash => exact expectedError_encode_of_padBody_error (.inr rfl) (hashBody_eq_error h)
  | sched b =>
    obtain ⟨hrange, rfl⟩ := schedBody_eq_error h
    have hb : (Instr.sched b).imm24.toNat = b := Nat.mod_eq_of_lt (by simpa [Instr.wf] using hwf)
    have hblocks : s.plen.toNat / 64 ≤ b := hrange
    simp only [expectedError, hop, himm, hb]
    simp [Instr.opcode, hblocks]
  | round =>
    obtain ⟨hover, rfl⟩ := roundBody_eq_error h
    simp only [expectedError, hop, himm]
    simp [Instr.opcode, Instr.imm24, hover]
  | feedfwd =>
    obtain ⟨hearly, rfl⟩ := feedfwdBody_eq_error h
    simp only [expectedError, hop, himm]
    simp [Instr.opcode, Instr.imm24, hearly]

/-- Everything a turn of CORE can do: nothing, the completion with the error the spec names, or the completion of a
command's effect (R105, R242, R243). -/
theorem eq_of_coreTurn {s t : State} (h : coreTurn s = .next t) :
    (s.pending = none ∧ t = s) ∨
    (∃ cmd e, s.pending = some cmd ∧ expectedError cmd s = some e ∧ t = s.complete cmd (some e)) ∨
    (∃ cmd i u, s.pending = some cmd ∧ decode cmd = .ok i ∧ Instr.body i s = .ok u ∧ t = u.complete cmd none) := by
  rcases coreTurn_cases s with ⟨hp, h'⟩ | ⟨cmd, e, hp, hd, h'⟩ | ⟨cmd, i, hp, hd, h'⟩ <;> rw [h'] at h
  · exact .inl ⟨hp, (Host.Outcome.next.inj h).symm⟩
  · exact .inr (.inl ⟨cmd, e, hp, expectedError_of_decode_error s hd, (Host.Outcome.next.inj h).symm⟩)
  · obtain ⟨hwf, rfl⟩ := wf_and_encode_of_decode hd
    rcases exec_cases i s with ⟨e, hb, h'⟩ | ⟨u, hb, h'⟩ <;> rw [h'] at h
    · exact .inr (.inl ⟨_, e, hp, expectedError_encode_of_body_error hwf hb, (Host.Outcome.next.inj h).symm⟩)
    · exact .inr (.inr ⟨_, i, u, hp, hd, hb, (Host.Outcome.next.inj h).symm⟩)

end Sys2Proof.Machine
end

section
/-! The invariant (O11): what each kind of update of the state asks for to keep it, then the steps of HOST, CORE and
the platform. -/

namespace Sys2Proof.Machine

/-! ## Updates -/

/-- R280: reset establishes the invariant for any parameters in range. -/
theorem inv_resetOf {c : Config} (h : c.wf) : (State.resetOf c).Inv where
  configLegal := h
  memCanonical := .nil
  memInRange := nofun
  busyIffPending := rfl
  busyNotDone := nofun
  irqLevel := rfl
  errcodeLegal := Nat.zero_le _
  plenBlocks := rfl
  plenFits := Nat.zero_le _
  rcntRange := Nat.zero_le _

/-- CTRL, STATUS and PENDING can be replaced together by any that agree with each other, if irq follows (R24, R38,
R39, R241). -/
theorem State.Inv.withControl {s : State} (h : s.Inv) (c : Ctrl) {p : Option Word} {st : Status}
    (hbusy : st.busy = p.isSome) (hdone : st.busy = true → st.done = false) (hcode : st.errcode.toNat ≤ 7) :
    ((s.setCtrl c).withControl p st (Sys2Proof.Machine.irqLevel c st)).Inv :=
  { h with busyIffPending := hbusy, busyNotDone := hdone, irqLevel := rfl, errcodeLegal := hcode }

/-- A change of the datapath alone keeps the invariant if M and PLEN fit the buffer and RCNT is at most 80 (R29, R30,
R36). -/
theorem State.SameControl.inv {s t : State} (h : s.Inv) (hc : s.SameControl t) (hwf : t.mem.wf)
    (hmem : ∀ x ∈ t.mem, x.1 < s.cfg.bufBytes) (hblocks : t.plen.toNat % 64 = 0)
    (hfits : t.plen.toNat ≤ s.cfg.bufBytes) (hrcnt : t.rcnt.toNat ≤ 80) : t.Inv where
  configLegal := hc.cfg ▸ h.configLegal
  memCanonical := hwf
  memInRange := hc.cfg ▸ hmem
  busyIffPending := by rw [hc.status, hc.pending]; exact h.busyIffPending
  busyNotDone := hc.status ▸ h.busyNotDone
  irqLevel := by rw [hc.irq, hc.ctrl, hc.status]; exact h.irqLevel
  errcodeLegal := hc.status ▸ h.errcodeLegal
  plenBlocks := hblocks
  plenFits := hc.cfg ▸ hfits
  rcntRange := hrcnt

theorem State.Inv.refreshIrq {s : State} (h : s.Inv) : s.refreshIrq.Inv := { h with irqLevel := rfl }

theorem State.Inv.setAgenda {s : State} (h : s.Inv) (l : List Event) : (s.setAgenda l).Inv := { h with }

theorem State.Inv.setReply {s : State} (h : s.Inv) (r : Option Reply) : (s.setReply r).Inv := { h with }

theorem State.Inv.setDraws {s : State} (h : s.Inv) (n : Nat) : (s.setDraws n).Inv := { h with }

/-- BUSERR is free (R248). -/
theorem State.Inv.busError {s : State} (h : s.Inv) : s.busError.Inv := { h with }

theorem State.Inv.setMem {s : State} (h : s.Inv) {m : Memory} (hwf : m.wf) (hm : ∀ x ∈ m, x.1 < s.cfg.bufBytes) :
    (s.setMem m).Inv :=
  { h with memCanonical := hwf, memInRange := hm }

/-! ## The commands -/

/-- PAD's checks keep its writes to M and PLEN within the buffer (R131, R133). -/
theorem padEffect_within {s : State} (h : s.Inv) (hf : s.PadFits) :
    (∀ x ∈ (padEffect s).mem, x.1 < s.cfg.bufBytes) ∧ (padEffect s).plen.toNat % 64 = 0 ∧
      (padEffect s).plen.toNat ≤ s.cfg.bufBytes := by
  have hP : padLength s.len.toNat ≤ s.cfg.bufBytes := hf.2
  rw [toNat_padEffect_plen h.configLegal hf]
  refine ⟨fun x hx => ?_, (padLength_bounds _).2.2, hP⟩
  rcases mem_padEffect hx with hlt | hold
  · exact hlt.trans_le hP
  · exact h.memInRange x hold

/-- The effect of every command that passes its checks keeps the invariant. -/
theorem inv_of_body {i : Instr} {s t : State} (h : s.Inv) (hb : Instr.body i s = .ok t) : t.Inv := by
  obtain ⟨hbuf, -, hcount, -⟩ := body_frame hb
  have hrcnt : t.rcnt.toNat ≤ 80 := by
    rcases hcount with ⟨hr, -⟩ | ⟨-, hr⟩ | ⟨-, hlt, hr⟩ <;> rw [hr]
    · exact h.rcntRange
    · exact Nat.zero_le _
    · rw [BitVec.toNat_add]; exact (Nat.mod_le _ _).trans hlt
  rcases hbuf with ⟨-, hf, hmem, hplen⟩ | ⟨-, -, hmem, hplen⟩
  · obtain ⟨hrange, hblocks, hfits⟩ := padEffect_within h hf
    exact (body_sameControl hb).inv h (hmem ▸ wf_padEffect h.memCanonical) (hmem ▸ hrange) (hplen ▸ hblocks)
      (hplen ▸ hfits) hrcnt
  · exact (body_sameControl hb).inv h (hmem ▸ h.memCanonical) (hmem ▸ h.memInRange) (hplen ▸ h.plenBlocks)
      (hplen ▸ h.plenFits) hrcnt

/-- Every error has a code of R240's table (R241). -/
theorem resultCode_le (r : Option CmdError) : (resultCode r).toNat ≤ 7 := by
  rcases r with _ | e
  · decide
  · cases e <;> decide

/-- Completion, with or without an error, keeps the invariant (R242). -/
theorem State.Inv.complete {s : State} (h : s.Inv) (cmd : Word) (r : Option CmdError) : (s.complete cmd r).Inv :=
  { h.withControl s.ctrl (p := none) (st := s.status.completed r) rfl nofun (resultCode_le r) with }

theorem inv_of_coreTurn {s t : State} (h : s.Inv) (hs : coreTurn s = .next t) : t.Inv := by
  rcases eq_of_coreTurn hs with ⟨-, rfl⟩ | ⟨cmd, e, -, -, rfl⟩ | ⟨cmd, i, u, -, -, hb, rfl⟩
  · exact h
  · exact h.complete cmd (some e)
  · exact (inv_of_body h hb).complete cmd none

/-! ## Accesses -/

theorem State.Inv.hostRead {s : State} (h : s.Inv) (addr : Nat) (sz : Size) : (s.hostRead addr sz).Inv := by
  unfold State.hostRead
  split
  · exact h
  · rename_i a _
    refine State.Inv.setReply (State.Inv.refreshIrq ?_) _
    by_cases hr : readAllowed s.cfg a sz
    · obtain ⟨v, n, hread⟩ := busRead_allowed hr
      rw [hread]; exact h.setDraws n
    · rw [busRead_refused hr]; exact h.busError

/-- A write within M keeps M canonical and in range: a word write at a multiple of 4 ends within the buffer (R36, R64). -/
theorem inv_setMem_store {s : State} (h : s.Inv) {o : Nat} {sz : Size} {v : Word} (ho : o < s.cfg.bufBytes)
    (h4 : sz = .word → o % 4 = 0) : (s.setMem (s.mem.store o (writtenBytes sz v))).Inv := by
  refine h.setMem (Memory.wf_store h.memCanonical _ _) fun x hx => ?_
  have hroom : o + (writtenBytes sz v).length ≤ s.cfg.bufBytes := by
    have hmod := Config.bufBytes_mod s.cfg
    cases sz with
    | byte => exact ho
    | word =>
      have := h4 rfl
      simp only [writtenBytes, wordBytes, List.length_cons, List.length_nil]
      omega
  rcases Memory.mem_store hx with ⟨-, hlt⟩ | hold
  · exact hlt.trans_le hroom
  · exact h.memInRange x hold

/-- An allowed write keeps the invariant once irq follows CTRL and STATUS (R23, R25, R65, R68, R104). -/
theorem inv_refreshIrq_of_writeTarget {s t : State} {a : Nat} {sz : Size} {v : Word} {x : Target} (h : s.Inv)
    (hx : target s.cfg a sz = some x) (hw : s.writeTarget x sz v = some t) : t.refreshIrq.Inv := by
  have hoff := target_offset hx
  cases x with
  | reg r =>
    cases r <;> simp only [State.writeTarget, Option.some.injEq, reduceCtorEq] at hw <;> subst hw
    case ctrl => exact h.withControl (Ctrl.ofWord v) h.busyIffPending h.busyNotDone h.errcodeLegal
    case status =>
      exact h.withControl s.ctrl (st := s.status.clear v) h.busyIffPending
        (fun hb => by simp [Status.clear, h.busyNotDone hb]) h.errcodeLegal
    case cmd => exact h.withControl s.ctrl (p := some v) (st := s.status.accepted) rfl (fun _ => rfl) h.errcodeLegal
    case lenLo => exact { h.refreshIrq with }
    case lenHi => exact { h.refreshIrq with }
  | h i =>
    obtain rfl := Option.some.inj hw
    exact { h.refreshIrq with }
  | wk i =>
    obtain rfl := Option.some.inj hw
    exact { h.refreshIrq with }
  | w i =>
    obtain rfl := Option.some.inj hw
    exact { h.refreshIrq with }
  | hex j => exact absurd hw nofun
  | msg o =>
    obtain rfl := Option.some.inj hw
    exact (inv_setMem_store h hoff.2.1 hoff.2.2).refreshIrq

theorem State.Inv.hostWrite {s : State} (h : s.Inv) (addr : Nat) (sz : Size) (v : Word) :
    (s.hostWrite addr sz v).Inv := by
  unfold State.hostWrite
  split
  · exact h
  · rename_i a _
    refine State.Inv.setReply ?_ _
    by_cases hw : writeAllowed s a sz
    · obtain ⟨x, t, hx, ht, hwrite⟩ := busWrite_allowed v hw
      rw [hwrite]; exact inv_refreshIrq_of_writeTarget h hx ht
    · rw [busWrite_refused v hw]; exact h.busError.refreshIrq

/-! ## Steps -/

theorem State.Inv.applyReset {s : State} (h : s.Inv) : s.applyReset.Inv :=
  (((inv_resetOf h.configLegal).setAgenda _).setReply _).setDraws _

/-- Settles O11: by what stands first on the agenda, each kind of step keeps the invariant. -/
theorem stepKeepsInvariant : Obligations.StepKeepsInvariant := by
  intro s t h hs
  rcases step_cases s with
    ⟨-, h'⟩ | ⟨addr, sz, rest, -, h'⟩ | ⟨addr, sz, v, rest, -, h'⟩ | ⟨rest, -, h'⟩ <;> rw [h'] at hs
  · exact inv_of_coreTurn (h.setAgenda s.agenda.tail) hs
  · obtain rfl := Host.Outcome.next.inj hs
    exact (h.setAgenda rest).hostRead addr sz
  · obtain rfl := Host.Outcome.next.inj hs
    exact (h.setAgenda rest).hostWrite addr sz v
  · obtain rfl := Host.Outcome.next.inj hs
    exact (h.setAgenda rest).applyReset

end Sys2Proof.Machine
end

section
/-! What a step leaves of the registers: the parameters (O12), and ERRCMD, LEN, PLEN, RCNT and HEX outside the steps
the rules name (O13). -/

namespace Sys2Proof.Machine

/-- R9, R11: the parameters are no state. -/
theorem step_cfg {s t : State} (h : step s = .next t) : t.cfg = s.cfg := by
  rcases step_cases s with
    ⟨-, h'⟩ | ⟨addr, sz, rest, -, h'⟩ | ⟨addr, sz, v, rest, -, h'⟩ | ⟨rest, -, h'⟩ <;> rw [h'] at h
  · exact (coreTurn_frame h).1
  · obtain rfl := Host.Outcome.next.inj h
    exact (hostRead_frame _ addr sz).1
  · obtain rfl := Host.Outcome.next.inj h
    exact (hostWrite_frame _ addr sz v).1
  · obtain rfl := Host.Outcome.next.inj h
    rfl

/-- Settles O12: ID reads a constant and BUFBLK the parameter, which no step changes. -/
theorem parametersNeverChange : Obligations.ParametersNeverChange := by
  intro s t h
  have hcfg := step_cfg h
  exact ⟨hcfg, rfl, congrArg (fun c : Config => BitVec.ofNat 32 c.bufBlocks) hcfg⟩

/-- What an access leaves alone, unless it writes LEN (R27, R29, R30, R35). -/
theorem access_keeps {s t : State} (h : step s = .next t) (hcore : ¬ s.CoreHasTurn)
    (hreset : s.agenda.head? ≠ some .reset) :
    t.errcmd = s.errcmd ∧ t.plen = s.plen ∧ t.rcnt = s.rcnt ∧ t.hex = s.hex ∧
      (t.len = s.len ∨ ∃ addr v, s.agenda.head? = some (.write addr .word v) ∧
        (addr = s.cfg.base + 0x014 ∨ addr = s.cfg.base + 0x018)) := by
  rcases step_cases s with
    ⟨hturn, -⟩ | ⟨addr, sz, rest, -, h'⟩ | ⟨addr, sz, v, rest, hag, h'⟩ | ⟨rest, hag, -⟩
  · exact absurd hturn hcore
  · obtain ⟨-, herr, hlen, hplen, hrcnt, hhex, -⟩ := hostRead_frame (s.setAgenda rest) addr sz
    obtain rfl := Host.Outcome.next.inj (h'.symm.trans h)
    exact ⟨herr, hplen, hrcnt, hhex, .inl hlen⟩
  · obtain ⟨-, herr, hlen, hplen, hrcnt, hhex, -⟩ := hostWrite_frame (s.setAgenda rest) addr sz v
    obtain rfl := Host.Outcome.next.inj (h'.symm.trans h)
    refine ⟨herr, hplen, hrcnt, hhex, hlen.imp id ?_⟩
    rintro ⟨rfl, haddr⟩
    exact ⟨addr, v, by rw [hag]; rfl, haddr⟩
  · exact absurd (by rw [hag]; rfl) hreset

/-- An error's completion touches no register but ERRCMD, which takes the command word (R243). -/
theorem complete_error_frame (cmd : Word) (e : CmdError) (s : State) :
    (s.complete cmd (some e)).errcmd = cmd ∧ (s.complete cmd (some e)).plen = s.plen ∧
      (s.complete cmd (some e)).rcnt = s.rcnt ∧ (s.complete cmd (some e)).hex = s.hex := ⟨rfl, rfl, rfl, rfl⟩

/-- A turn of CORE changes ERRCMD only by an error, and each datapath register only by the commands the rules name
(R27, R29, R35, R182). -/
theorem core_changes {s t : State} (hturn : s.CoreHasTurn) (h : step s = .next t) :
    (t.errcmd ≠ s.errcmd → ∃ cmd e, s.pending = some cmd ∧ expectedError cmd s = some e ∧ t.errcmd = cmd) ∧
    (t.plen ≠ s.plen → s.Performs .pad ∨ s.Performs .hash) ∧
    (t.rcnt ≠ s.rcnt → s.Performs .init ∨ s.Performs .loadw ∨ s.Performs .round ∨ s.Performs .feedfwd
      ∨ s.Performs .compress ∨ s.Performs .hash) ∧
    (t.hex ≠ s.hex → s.Performs .encode ∨ s.Performs .hash) := by
  rw [step_core hturn] at h
  rcases eq_of_coreTurn h with ⟨-, rfl⟩ | ⟨cmd, e, hp, he, rfl⟩ | ⟨cmd, i, u, hp, hd, hb, rfl⟩
  · exact ⟨absurd rfl, absurd rfl, absurd rfl, absurd rfl⟩
  · obtain ⟨herr, hplen, hrcnt, hhex⟩ := complete_error_frame cmd e s.turnTaken
    exact ⟨fun _ => ⟨cmd, e, hp, he, herr⟩, absurd hplen, absurd hrcnt, absurd hhex⟩
  · have hperf : s.Performs i := ⟨hturn, cmd, hp, hd⟩
    obtain ⟨hbuf, hhex, hcount, -⟩ := body_frame hb
    refine ⟨absurd (body_sameControl hb).errcmd, fun hne => ?_, fun hne => ?_, fun hne => ?_⟩
    · rcases hbuf with ⟨rfl | rfl, -⟩ | ⟨-, -, -, hplen⟩
      · exact .inl hperf
      · exact .inr hperf
      · exact absurd hplen hne
    · rcases hcount with ⟨hrcnt, -⟩ | ⟨hi, -⟩ | ⟨rfl, -⟩
      · exact absurd hrcnt hne
      · rcases hi with rfl | rfl | rfl | rfl | rfl <;> simp only [hperf, true_or, or_true]
      · exact .inr (.inr (.inl hperf))
    · rcases hhex.resolve_left hne with rfl | rfl
      · exact .inl hperf
      · exact .inr hperf

/-- Settles O13: an access writes none of these registers but LEN, and a turn of CORE none but those of its command. -/
theorem onlyNamedStepsWriteEachRegister : Obligations.OnlyNamedStepsWriteEachRegister := by
  intro s t h hreset
  by_cases hturn : s.CoreHasTurn
  · obtain ⟨herr, hplen, hrcnt, hhex⟩ := core_changes hturn h
    rw [step_core hturn] at h
    exact ⟨fun hne => ⟨hturn, herr hne⟩, absurd (coreTurn_frame h).2.1, hplen, hrcnt, hhex⟩
  · obtain ⟨herr, hplen, hrcnt, hhex, hlen⟩ := access_keeps h hturn hreset
    exact ⟨absurd herr, hlen.resolve_left, absurd hplen, absurd hrcnt, absurd hhex⟩

end Sys2Proof.Machine
end

section
/-! Word accesses to the registers: the STATUS and CTRL words (O22, O23, O24), and reads and writes of the other
registers while idle (O27, O28). -/

namespace Sys2Proof.Machine

/-- The step that makes a write the map and the busy rule let through. -/
theorem step_write_target {s u : State} {a : Nat} {sz : Size} {v : Word} {rest : List Event} {x : Target}
    (hag : s.agenda = .write (s.cfg.base + a) sz v :: rest) (ha : a < 2 ^ 31) (hx : target s.cfg a sz = some x)
    (hb : s.status.busy = false ∨ x.writableWhileBusy = true) (hw : (s.setAgenda rest).writeTarget x sz v = some u) :
    step s = .next (u.refreshIrq.setReply (some (.write .okay))) := by
  have hwrite : (s.setAgenda rest).busWrite a sz v = (.okay, u) := busWrite_target hx hb hw
  rw [step_write ha hag, hwrite]

/-- The step that makes a read the map and the busy rule let through. -/
theorem step_read_target {s u : State} {a : Nat} {sz : Size} {v : Word} {rest : List Event} {x : Target}
    (hag : s.agenda = .read (s.cfg.base + a) sz :: rest) (ha : a < 2 ^ 31) (hx : target s.cfg a sz = some x)
    (hb : s.status.busy = false ∨ x.exactWhileBusy = true) (hr : (s.setAgenda rest).readTarget x sz = (v, u)) :
    step s = .next (u.refreshIrq.setReply (some (.read v .okay))) := by
  have hread : (s.setAgenda rest).busRead a sz = ((v, .okay), u) := by
    rw [busRead_target (s := s.setAgenda rest) hx hb, hr]
  rw [step_read ha hag, hread]

/-! ## STATUS and CTRL -/

/-- CTRL reads as IE in bit 0 and as 0 elsewhere (R23). -/
theorem Ctrl.getLsbD_word (c : Ctrl) (i : Nat) : c.word.getLsbD i = (decide (i = 0) && c.ie) := by
  unfold Ctrl.word
  rw [BitVec.getLsbD_append]
  cases i <;> simp

/-- What CTRL reads as after a write of v (R23). -/
theorem Ctrl.word_ofWord (v : Word) : (Ctrl.ofWord v).word = v &&& 1 := by
  apply BitVec.eq_of_getLsbD_eq
  intro i _
  rw [Ctrl.getLsbD_word, BitVec.getLsbD_and]
  cases i <;> simp [Ctrl.ofWord, BitVec.getLsbD_one]

/-- Bits 0 to 3 of STATUS are its four flags (R24). -/
theorem Status.getLsbD_word_flags (t : Status) :
    t.word.getLsbD 0 = t.busy ∧ t.word.getLsbD 1 = t.done ∧ t.word.getLsbD 2 = t.err ∧ t.word.getLsbD 3 = t.buserr := by
  unfold Status.word
  simp only [BitVec.getLsbD_append, BitVec.getLsbD_ofBool]
  exact ⟨rfl, rfl, rfl, rfl⟩

/-- Above its flags STATUS holds four reserved bits, ERRCODE, and nothing more (R24). -/
theorem Status.getLsbD_word_above (t : Status) (j : Nat) :
    t.word.getLsbD (4 + j) = (decide (4 ≤ j) && t.errcode.getLsbD (j - 4)) := by
  have hflags : 4 + j - 1 - 1 - 1 - 1 = j := by omega
  unfold Status.word
  simp only [BitVec.getLsbD_append]
  rw [if_neg (by omega), if_neg (by omega), if_neg (by omega), if_neg (by omega), hflags]
  by_cases hlow : j < 4
  · simp [hlow]
  · by_cases hcode : j - 4 < 8
    · simp [hlow, hcode, Nat.not_lt.mp hlow]
    · simp [hlow, hcode, BitVec.getLsbD_of_ge t.errcode (j - 4) (by omega)]

/-- Settles O22: STATUS is written busy or idle, and only by `Status.clear`. -/
theorem statusWriteClearsBits : Obligations.StatusWriteClearsBits := by
  intro s v rest hag
  exact ⟨_, step_write_target hag (by decide) (x := .reg .status) rfl (.inr rfl) rfl,
    rfl, rfl, rfl, rfl, rfl, rfl, rfl⟩

/-- Settles O23: CTRL is written busy or idle, and only its bit IE. -/
theorem controlWriteSetsInterruptEnable : Obligations.ControlWriteSetsInterruptEnable := by
  refine ⟨fun _ => show (Ctrl.mk false).word = 0 by decide, fun s v rest hag => ?_⟩
  exact ⟨_, step_write_target hag (by decide) (x := .reg .ctrl) rfl (.inr rfl) rfl, Ctrl.word_ofWord v, rfl, rfl, rfl⟩

/-- Settles O24: ERRCODE and the reserved fields are slices of the part above the four flags. -/
theorem statusWordFields : Obligations.StatusWordFields := by
  intro s
  obtain ⟨hbusy, hdone, herr, hbuserr⟩ := Status.getLsbD_word_flags s.status
  have habove (i : Nat) : (s.regValue .status).getLsbD (4 + i) = _ := Status.getLsbD_word_above s.status i
  refine ⟨hbusy, hdone, herr, hbuserr, ?_, ?_, ?_⟩ <;> apply BitVec.eq_of_getLsbD_eq <;> intro i hi <;>
    rw [BitVec.getLsbD_extractLsb']
  · rw [habove]
    simp [Nat.not_le.mpr hi]
  · rw [show 8 + i = 4 + (4 + i) by omega, habove]
    simp [hi]
  · rw [show 16 + i = 4 + (12 + i) by omega, habove, BitVec.getLsbD_of_ge s.status.errcode _ (by omega)]
    simp

/-! ## The other registers, while idle -/

/-- The register at an offset of region REG is what a word access there reaches (R21, R62). -/
theorem target_reg (c : Config) {a : Nat} {r : Reg} (h : regAt a = some r) :
    a < 2 ^ 31 ∧ target c a .word = some (.reg r) := by
  have ha := regAt_offset h
  cases r <;> simp only at ha <;> subst ha <;> exact ⟨by decide, rfl⟩

/-- A write of W[t] at an index the map gives (R34). -/
theorem State.writeW_fin (s : State) (i : Fin 80) (v : Word) : s.writeW i v = s.setWAll (s.w.set i (.written v)) := by
  simp [State.writeW, Vector.set, Vector.setIfInBounds, Array.setIfInBounds]

/-- Settles O27: the map gives each offset its register, and the write stores that one alone. -/
theorem registerWritesStoreOneRegister : Obligations.RegisterWritesStoreOneRegister := by
  intro s a v rest hidle hag
  refine ⟨?_, ?_, ?_, ?_, ?_, ?_, ?_, ?_, ?_⟩
  · rintro rfl
    exact step_write_target hag (by decide) (x := .reg .lenLo) rfl (.inl hidle) rfl
  · rintro rfl
    exact step_write_target hag (by decide) (x := .reg .lenHi) rfl (.inl hidle) rfl
  · rintro i rfl
    exact step_write_target hag (by omega) (target_h _ i) (.inl hidle) rfl
  · rintro rfl
    exact step_write_target hag (by decide) (target_wk _ 0) (.inl hidle) rfl
  · rintro rfl
    exact step_write_target hag (by decide) (target_wk _ 1) (.inl hidle) rfl
  · rintro rfl
    exact step_write_target hag (by decide) (target_wk _ 2) (.inl hidle) rfl
  · rintro rfl
    exact step_write_target hag (by decide) (target_wk _ 3) (.inl hidle) rfl
  · rintro rfl
    exact step_write_target hag (by decide) (target_wk _ 4) (.inl hidle) rfl
  · rintro i rfl
    exact step_write_target hag (by omega) (target_w _ i) (.inl hidle) (congrArg some (State.writeW_fin _ i v))

/-- Settles O28: the map gives each offset its register, and the read answers that one. -/
theorem registerReadsReturnTheRegister : Obligations.RegisterReadsReturnTheRegister := by
  intro s a rest hidle hag
  have hreturns {x : Target} {v : Word} (ha : a < 2 ^ 31) (hx : target s.cfg a .word = some x)
      (hr : (s.setAgenda rest).readTarget x .word = (v, s.setAgenda rest)) :
      ∃ t, step s = .next t ∧ t.reply = some (.read v .okay) ∧ t.draws = s.draws :=
    ⟨_, step_read_target hag ha hx (.inl hidle) hr, rfl, rfl⟩
  have hreg (r : Reg) (ha : regAt a = some r) := hreturns (target_reg s.cfg ha).1 (target_reg s.cfg ha).2 rfl
  have hh (i : Fin 5) (ha : a = 0x040 + 4 * i.val) := hreturns (by omega) (ha ▸ target_h s.cfg i) rfl
  have hwk (i : Fin 5) (ha : a = 0x060 + 4 * i.val) := hreturns (by omega) (ha ▸ target_wk s.cfg i) rfl
  constructor
  · simp only [List.forall_mem_cons, List.not_mem_nil, false_implies, implies_true, and_true, BitVec.ofNat_toNat]
    exact ⟨fun ha => hreg .id (ha ▸ rfl), fun ha => hreg .ctrl (ha ▸ rfl), fun ha => hreg .status (ha ▸ rfl),
      fun ha => hreg .cmd (ha ▸ rfl), fun ha => hreg .errcmd (ha ▸ rfl), fun ha => hreg .lenLo (ha ▸ rfl),
      fun ha => hreg .lenHi (ha ▸ rfl), fun ha => hreg .plen (ha ▸ rfl), fun ha => hreg .rcnt (ha ▸ rfl),
      fun ha => hreg .bufblk (ha ▸ rfl), hh 0, hh 1, hh 2, hh 3, hh 4, hwk 0, hwk 1, hwk 2, hwk 3, hwk 4⟩
  · rintro i rfl
    have hread := step_read_target hag (by omega) (target_w _ i) (.inl hidle) (State.readElem_eq _ _)
    have helem : (s.setAgenda rest).wElem i = s.w[i] := State.wElem_eq _ i.isLt
    rw [helem] at hread
    constructor
    · intro v hv
      exact ⟨_, hread, by simp [hv], by simp [hv]⟩
    · intro hv
      exact ⟨_, hread, by simp [hv], by simp [hv], hv⟩

end Sys2Proof.Machine
end

section
/-! The accesses of HOST: an address outside the window (O17), which accesses are refused (O18, O19, O20), reads while
busy (O26), and the bytes of M and HEX while idle (O29, O30, O31). -/

namespace Sys2Proof.Machine

/-! ## Outside the window, and refusal -/

theorem offsetOf_eq_none {c : Config} {addr : Nat} (h : addr < c.base ∨ c.base + 2 ^ 31 ≤ addr) :
    offsetOf c addr = none :=
  if_neg (by omega)

/-- Settles O17: such an address has no offset, so the access reaches no register. -/
theorem accessOutsideWindowHasNoEffect : Obligations.AccessOutsideWindowHasNoEffect := by
  intro s addr sz v rest hout
  have hoff : offsetOf (s.setAgenda rest).cfg addr = none := offsetOf_eq_none hout
  have hread : (s.setAgenda rest).hostRead addr sz = s.setAgenda rest := by rw [State.hostRead, hoff]
  have hwrite : (s.setAgenda rest).hostWrite addr sz v = s.setAgenda rest := by rw [State.hostWrite, hoff]
  constructor
  · intro hag
    rw [step, hag]
    exact congrArg _ hread
  · intro hag
    rw [step, hag]
    exact congrArg _ hwrite

/-- The step that makes a read the map refuses (R70). -/
theorem step_read_refused {s : State} {a : Nat} {sz : Size} {rest : List Event} (ha : a < 2 ^ 31)
    (hag : s.agenda = .read (s.cfg.base + a) sz :: rest) (h : ¬ readAllowed s.cfg a sz) :
    step s = .next ((s.setAgenda rest).busError.refreshIrq.setReply (some (.read 0 .error))) := by
  have hread : (s.setAgenda rest).busRead a sz = ((0, .error), (s.setAgenda rest).busError) := busRead_refused h
  rw [step_read ha hag, hread]

/-- The step that makes a write the block refuses (R70, R74). -/
theorem step_write_refused {s : State} {a : Nat} {sz : Size} {v : Word} {rest : List Event} (ha : a < 2 ^ 31)
    (hag : s.agenda = .write (s.cfg.base + a) sz v :: rest) (h : ¬ writeAllowed s a sz) :
    step s = .next ((s.setAgenda rest).busError.refreshIrq.setReply (some (.write .error))) := by
  have hwrite : (s.setAgenda rest).busWrite a sz v = (.error, (s.setAgenda rest).busError) := busWrite_refused v h
  rw [step_write ha hag, hwrite]

/-- R64's two cases are refused by the map. -/
theorem not_readAllowed_of_illegal {c : Config} {a : Nat} {sz : Size}
    (h : (sz = .word ∧ a % 4 ≠ 0) ∨ (sz = .byte ∧ ¬ inByteRegion c a)) : ¬ readAllowed c a sz := by
  rintro ⟨hword, hbyte⟩
  rcases h with ⟨hsz, hmis⟩ | ⟨hsz, hout⟩
  · exact hmis (hword hsz).1
  · exact hout (hbyte hsz)

/-- Settles O18: the map refuses both cases, and a write the map refuses is refused whatever its target. -/
theorem illegalSizeOrAlignmentIsBusError : Obligations.IllegalSizeOrAlignmentIsBusError := by
  intro s a sz v rest ha hill
  have hrefused := not_readAllowed_of_illegal hill
  exact ⟨fun hag => ⟨_, step_read_refused ha hag hrefused, rfl, rfl⟩,
    fun hag => ⟨_, step_write_refused ha hag (fun hw => hrefused hw.1), rfl, rfl⟩⟩

/-- Settles O19: a read has two ends, and the one that answers OKAY counts free values at most. -/
theorem readsAreRefusedOrHaveNoEffect : Obligations.ReadsAreRefusedOrHaveNoEffect := by
  intro s a sz rest ha hag
  refine ⟨step_read_refused ha hag, fun hallowed => ?_⟩
  obtain ⟨v, n, hread⟩ := busRead_allowed (s := s.setAgenda rest) hallowed
  refine ⟨v, n, ?_⟩
  rw [step_read ha hag, hread]
  rfl

/-- An access that is let through reaches a register exactly at that register's offset (R21, R64). -/
theorem eq_reg_iff_of_target {c : Config} {a : Nat} {sz : Size} {x : Target} {r : Reg} (hx : target c a sz = some x) :
    x = .reg r ↔ regAt a = some r := by
  constructor
  · rintro rfl
    exact (target_offset hx).2
  · intro hr
    cases sz with
    | word => exact Option.some.inj (hx.symm.trans (target_reg c hr).2)
    | byte =>
      have hregion : inByteRegion c a := ((target_isSome c a .byte).mp (Option.isSome_of_eq_some hx)).2 rfl
      have ha := regAt_offset hr
      exfalso
      unfold inByteRegion at hregion
      cases r <;> simp only at ha <;> omega

/-! ## BUSERR after a write -/

/-- Only a write to STATUS can change BUSERR (R25). -/
theorem buserr_of_writeTarget_ne_status {s t : State} {x : Target} {sz : Size} {v : Word} (hne : x ≠ .reg .status)
    (hw : s.writeTarget x sz v = some t) : t.status.buserr = s.status.buserr := by
  cases x with
  | reg r =>
    cases r <;> simp only [State.writeTarget, Option.some.injEq, reduceCtorEq] at hw <;> subst hw
    case status => exact absurd rfl hne
    all_goals rfl
  | h i => obtain rfl := Option.some.inj hw; rfl
  | wk i => obtain rfl := Option.some.inj hw; rfl
  | w i => obtain rfl := Option.some.inj hw; rfl
  | hex j => exact absurd hw nofun
  | msg o => obtain rfl := Option.some.inj hw; rfl

/-- A write that is let through changes BUSERR only by a one in bit 3 of STATUS (R25). -/
theorem buserr_of_writeTarget {s t : State} {a : Nat} {sz : Size} {v : Word} {x : Target}
    (hx : target s.cfg a sz = some x) (hw : s.writeTarget x sz v = some t) :
    t.status.buserr = (s.status.buserr && !(a == 0x008 && v.getLsbD 3)) := by
  by_cases h : a = 0x008
  · obtain rfl : x = .reg .status := (eq_reg_iff_of_target hx).mpr (h ▸ rfl)
    obtain rfl := Option.some.inj hw
    simp [h, Status.clear]
  · have hne : x ≠ .reg .status := fun hs => h (regAt_offset ((eq_reg_iff_of_target hx).mp hs))
    rw [buserr_of_writeTarget_ne_status hne hw]
    simp [h]

/-- Settles O20: a write has two ends, and the one that answers OKAY has its target's effect. -/
theorem writesAreRefusedExactly : Obligations.WritesAreRefusedExactly := by
  intro s a sz v rest ha hag
  refine ⟨step_write_refused ha hag, fun hallowed => ?_⟩
  obtain ⟨x, u, hx, hu, hwrite⟩ := busWrite_allowed (s := s.setAgenda rest) v hallowed
  have hbuserr := buserr_of_writeTarget (s := s.setAgenda rest) hx hu
  rw [step_write ha hag, hwrite]
  exact ⟨_, rfl, rfl, hbuserr⟩

/-! ## Reads while busy (R75) -/

/-- The offsets that read their values while busy (R75). -/
theorem mem_of_exactWhileBusy {c : Config} {a : Nat} {sz : Size} {x : Target} (hx : target c a sz = some x)
    (h : x.exactWhileBusy = true) : a ∈ [0x000, 0x004, 0x008, 0x00C, 0x024] := by
  cases x with
  | reg r =>
    have ha := regAt_offset (target_offset hx).2
    cases r <;> simp_all [Target.exactWhileBusy]
  | _ => simp [Target.exactWhileBusy] at h

/-- Any other read while busy answers the next free value (R75). -/
theorem busRead_free {s : State} {a : Nat} {sz : Size} {x : Target} (hx : target s.cfg a sz = some x)
    (hbusy : s.status.busy = true) (hfree : x.exactWhileBusy = false) :
    s.busRead a sz = ((Config.draw s.draws, .okay), s.setDraws (s.draws + 1)) := by
  simp [State.busRead, hx, hbusy, hfree, State.readElem_eq]

/-- Settles O26: each of the five offsets gives its register, and any other target is not exact while busy. -/
theorem busyReadsAreExactOrFree : Obligations.BusyReadsAreExactOrFree := by
  intro s a sz rest hbusy hallowed ha hag
  obtain ⟨x, hx⟩ := Option.isSome_iff_exists.mp ((target_isSome _ _ _).mpr hallowed)
  constructor
  · have hexact (r : Reg) (hr : regAt a = some r) (he : (Target.reg r).exactWhileBusy = true) :
        step s = .next { s with
          irq := s.ctrl.ie && s.status.done, agenda := rest, reply := some (.read (s.regValue r) .okay) } :=
      step_read_target hag ha (hx.trans (congrArg some ((eq_reg_iff_of_target hx).mpr hr))) (.inr he) rfl
    simp only [List.forall_mem_cons, List.not_mem_nil, false_implies, implies_true, and_true]
    exact ⟨fun h => hexact .id (h ▸ rfl) rfl, fun h => hexact .ctrl (h ▸ rfl) rfl,
      fun h => hexact .status (h ▸ rfl) rfl, fun h => hexact .cmd (h ▸ rfl) rfl,
      fun h => hexact .bufblk (h ▸ rfl) rfl⟩
  · intro hother
    have hfree : x.exactWhileBusy = false := Bool.eq_false_iff.mpr (mt (mem_of_exactWhileBusy hx) hother)
    rw [step_read ha hag, busRead_free (s := s.setAgenda rest) hx hbusy hfree]
    rfl

/-! ## The bytes of M and HEX, while idle -/

/-- M ends within the window (R9, R36, R61). -/
theorem msgOffset_lt {c : Config} (hc : c.wf) {o : Nat} (ho : o < c.bufBytes) : 0x40000000 + o < 2 ^ 31 := by
  obtain ⟨-, hmax, -⟩ := hc
  unfold Config.bufBytes at ho
  omega

/-- The step of a write to M while idle: it stores bytes of the word written and nothing else (R68). -/
theorem step_write_msg {s : State} {o : Nat} {sz : Size} {v : Word} {rest : List Event} (hidle : s.status.busy = false)
    (hc : s.cfg.wf) (ho : o < s.cfg.bufBytes) (h4 : sz = .word → o % 4 = 0)
    (hag : s.agenda = .write (s.cfg.base + 0x40000000 + o) sz v :: rest) :
    step s = .next { s with
      mem := s.mem.store o (writtenBytes sz v), irq := s.ctrl.ie && s.status.done, agenda := rest
      reply := some (.write .okay) } := by
  rw [Nat.add_assoc] at hag
  exact step_write_target hag (msgOffset_lt hc ho) (target_msg _ sz ho h4) (.inl hidle) rfl

theorem find_store_byte (m : Memory) (o : Nat) (v : Word) (x : Nat) :
    (m.store o (writtenBytes .byte v)).find x = if x = o then .written (v.extractLsb' 0 8) else m.find x :=
  Memory.find_write m o _ x

/-- A word is stored with its most significant byte first (R69). -/
theorem find_store_word (m : Memory) (o : Nat) (v : Word) (x : Nat) :
    (m.store o (writtenBytes .word v)).find x =
      if x = o then .written (v.extractLsb' 24 8)
      else if x = o + 1 then .written (v.extractLsb' 16 8)
      else if x = o + 2 then .written (v.extractLsb' 8 8)
      else if x = o + 3 then .written (v.extractLsb' 0 8)
      else m.find x := by
  simp only [writtenBytes, wordBytes, wordByte, Memory.store, Memory.find_write, Nat.add_assoc]
  have hwhere : x = o ∨ x = o + 1 ∨ x = o + 2 ∨ x = o + 3 ∨ (x ≠ o ∧ x ≠ o + 1 ∧ x ≠ o + 2 ∧ x ≠ o + 3) := by omega
  rcases hwhere with rfl | rfl | rfl | rfl | ⟨h0, h1, h2, h3⟩
  · simp
  · simp
  · simp
  · simp
  · simp [h0, h1, h2, h3]

/-- Settles O29: the memory stored reads back byte by byte. -/
theorem messageBufferWrites : Obligations.MessageBufferWrites := by
  intro s o v rest hidle hc ho
  constructor
  · intro hag
    exact ⟨_, step_write_msg hidle hc ho (by simp) hag, find_store_byte s.mem o v⟩
  · intro h4 hag
    exact ⟨_, step_write_msg hidle hc ho (fun _ => h4) hag, find_store_word s.mem o v⟩

/-- A byte read gives its element's value, zero-extended (R66, R67). -/
theorem readBytes_byte (f : Nat → Elem Byte) (o : Nat) (s : State) :
    s.readBytes f o .byte =
      (BitVec.ofNat 32 ((f o).value s.draws).toNat, s.setDraws (s.draws + (f o).cost)) := by
  simp [State.readBytes, State.readElem_eq]

/-- A word read gives four bytes, the first in bits 31:24, each one the byte written where there is one (R66, R67). -/
theorem readBytes_word (f : Nat → Elem Byte) (o : Nat) (s : State) :
    ∃ v n, s.readBytes f o .word = (v, s.setDraws n) ∧
      ∀ j x, j < 4 → f (o + j) = .written x → v.extractLsb' (24 - 8 * j) 8 = x := by
  refine ⟨_, _, State.readQuad_eq f o s, fun j x hj hx => ?_⟩
  obtain ⟨h0, h1, h2, h3⟩ := wordByte_ofBytes ((f o).value s.draws) ((f (o + 1)).value (s.draws + (f o).cost))
    ((f (o + 2)).value (s.draws + (f o).cost + (f (o + 1)).cost))
    ((f (o + 3)).value (s.draws + (f o).cost + (f (o + 1)).cost + (f (o + 2)).cost))
  match j, hj with
  | 0, _ => exact h0.trans (by rw [show f o = _ from hx, Elem.value_written])
  | 1, _ => exact h1.trans (by rw [hx, Elem.value_written])
  | 2, _ => exact h2.trans (by rw [hx, Elem.value_written])
  | 3, _ => exact h3.trans (by rw [hx, Elem.value_written])

/-- Settles O30: M is the source of the bytes read. -/
theorem messageBufferReads : Obligations.MessageBufferReads := by
  intro s o rest hidle hc ho
  have ha := msgOffset_lt hc ho
  rw [Nat.add_assoc]
  constructor
  · intro hag
    exact ⟨_, _, step_read_target hag ha (target_msg _ _ ho nofun) (.inl hidle) (readBytes_byte s.mem.find o _),
      rfl, rfl, fun x hx => by simp [hx], fun hx => by simp [hx]⟩
  · intro h4 hag
    obtain ⟨v, n, hread, hbytes⟩ := readBytes_word s.mem.find o (s.setAgenda rest)
    exact ⟨_, v, step_read_target hag ha (target_msg _ _ ho fun _ => h4) (.inl hidle) hread, rfl, rfl, hbytes⟩

/-- Settles O31: HEX is the source of the characters read, and each of its offsets is read-only. -/
theorem hexReads : Obligations.HexReads := by
  refine ⟨fun s j rest hidle hj hag => ?_, fun s k rest hidle hk hag => ?_, fun s j sz v rest hj hag => ?_⟩ <;>
    rw [Nat.add_assoc] at hag
  · exact ⟨_, _, step_read_target hag (by omega) (target_hex _ _ hj nofun) (.inl hidle) (readBytes_byte s.hexElem j _),
      rfl, rfl, fun x hx => by simp [hx], fun hx => by simp [hx]⟩
  · obtain ⟨v, n, hread, hbytes⟩ := readBytes_word s.hexElem (4 * k) (s.setAgenda rest)
    exact ⟨_, v, step_read_target hag (by omega) (target_hex _ _ (by omega) fun _ => by omega) (.inl hidle) hread,
      rfl, rfl, hbytes⟩
  · have hrefused : ¬ writeAllowed s (0x080 + j) sz := fun h => h.2.1 (by unfold readOnlyOffset; omega)
    exact ⟨_, step_write_refused (by omega) hag hrefused, rfl, rfl⟩

end Sys2Proof.Machine
end

section
/-! Commands as words (O1, O2, O3): each check of decode as a rule of its own, and the round trip with encode. -/

namespace Sys2Proof

/-! ## The checks of decode (R106) -/

theorem decode_of_reserved {cmd : Word} (hres : 0x0A < cmd.toNat % 256) : decode cmd = .error .illegalOpcode := by
  rw [decode_eq, if_pos hres]

theorem decode_of_sched {cmd : Word} (hop : cmd.toNat % 256 = 0x03) : decode cmd = .ok (.sched (cmd.toNat / 256)) := by
  rw [decode_eq, if_neg (by omega), if_pos hop]

theorem decode_of_operand {cmd : Word} (hle : cmd.toNat % 256 ≤ 0x0A) (hne : cmd.toNat % 256 ≠ 0x03)
    (himm : cmd.toNat / 256 ≠ 0) : decode cmd = .error .badOperand := by
  rw [decode_eq, if_neg (by omega), if_neg hne, if_pos himm]

theorem decode_of_plainRow {cmd : Word} {i : Instr} (hle : cmd.toNat % 256 ≤ 0x0A) (hne : cmd.toNat % 256 ≠ 0x03)
    (himm : cmd.toNat / 256 = 0) (hrow : plainRow (cmd.toNat % 256) = some i) : decode cmd = .ok i := by
  rw [decode_eq, if_neg (by omega), if_neg hne, if_neg (not_not.mpr himm), hrow]

/-- The opcodes number the rows of the opcode table in its order (R102). -/
theorem getElem?_opcodeTable_of_plainRow {op : Nat} {i : Instr} (h : plainRow op = some i) :
    [Instr.nop, .init, .pad, .sched 0, .expand, .loadw, .round, .feedfwd, .compress, .encode, .hash][op]? = some i := by
  unfold plainRow at h
  split at h <;> cases h <;> rfl

/-! ## Encoding and decoding -/

/-- Encoding loses nothing: SCHED's operand fits its 24 bits, and no other command has one (R101, R108). -/
theorem decode_encode {i : Instr} (hwf : i.wf = true) : decode (encode i) = .ok i := by
  cases i with
  | sched b =>
    obtain ⟨hop, himm⟩ := toNat_encode_fields (.sched b)
    have hb : (Instr.sched b).imm24.toNat = b := Nat.mod_eq_of_lt (by simpa [Instr.wf] using hwf)
    rw [decode_of_sched hop]
    exact congrArg (fun n => Except.ok (Instr.sched n)) (himm.trans hb)
  | nop | init | pad | expand | loadw | round | feedfwd | compress | encode | hash => rfl

/-- The word 0 is the only one that is NOP (R103). -/
theorem decode_eq_nop_iff (cmd : Word) : decode cmd = .ok .nop ↔ cmd = 0 := by
  constructor
  · intro h
    exact (wf_and_encode_of_decode h).2.symm
  · rintro rfl
    exact decode_encode (i := .nop) rfl

/-- Settles O1: neither direction loses a bit of the operand or of the opcode. -/
theorem decodeEncodeAgree : Obligations.DecodeEncodeAgree :=
  ⟨fun _ => decode_encode, fun _ _ => wf_and_encode_of_decode⟩

/-- Settles O2: one rule per check; past the checks every opcode has its row. -/
theorem decodeChecksInOrder : Obligations.DecodeChecksInOrder := by
  intro cmd
  refine ⟨decode_of_reserved, decode_of_operand, decode_of_sched, fun hle hne himm => ?_⟩
  obtain ⟨i, hrow⟩ := Option.ne_none_iff_exists'.mp (plainRow_ne_none hle hne)
  exact ⟨i, decode_of_plainRow hle hne himm hrow, getElem?_opcodeTable_of_plainRow hrow⟩

/-- Settles O3: each word is the encoding of its command. -/
theorem specWordsDecode : Obligations.SpecWordsDecode :=
  ⟨decode_encode (i := .nop) rfl, decode_encode (i := .pad) rfl, decode_encode (i := .sched 1) rfl,
    decode_encode (i := .sched 0x123456) rfl, decode_encode (i := .compress) rfl, decode_encode (i := .encode) rfl,
    decode_encode (i := .hash) rfl⟩

end Sys2Proof
end

section
/-! A command from its write to CMD to its completion: acceptance (O21), CORE's step (O5), and the words R103 reserves
(O4). -/

namespace Sys2Proof.Machine

/-! ## Acceptance (R104) -/

/-- Acceptance clears DONE, so irq falls (R39). -/
theorem State.refreshIrq_accept (s : State) (v : Word) : (s.accept v).refreshIrq = (s.accept v).setIrq false :=
  congrArg (fun level => (s.accept v).setIrq level) (Bool.and_false s.ctrl.ie)

/-- A write to CMD while idle has CMD's effect, whatever the word. -/
theorem step_write_cmd_idle {s : State} {v : Word} {rest : List Event} (hidle : s.status.busy = false)
    (hag : s.agenda = .write (s.cfg.base + 0x00C) .word v :: rest) :
    step s = .next { s with
      pending := some v
      status := { s.status with busy := true, done := false }
      irq := false
      agenda := rest
      reply := some (.write .okay) } := by
  rw [step_write_target hag (by decide) (x := .reg .cmd) rfl (.inl hidle) rfl, State.refreshIrq_accept]
  rfl

/-- CMD is none of the two registers a write reaches while busy (R74). -/
theorem not_writeAllowed_cmd_busy {s : State} (hbusy : s.status.busy = true) : ¬ writeAllowed s 0x00C .word := by
  rintro ⟨-, -, hwritable⟩
  exact absurd (hwritable hbusy) (by decide)

/-- Settles O21: while idle the write has CMD's effect, and while busy the block refuses it. -/
theorem commandAcceptance : Obligations.CommandAcceptance := by
  intro s v rest hag
  refine ⟨fun hidle => step_write_cmd_idle hidle hag, fun hbusy => ?_⟩
  exact ⟨_, step_write_refused (by decide) hag (not_writeAllowed_cmd_busy hbusy), rfl, rfl, rfl⟩

/-! ## CORE's step (R105) -/

theorem step_of_decode_ok {s : State} {cmd : Word} {i : Instr} (hturn : s.CoreHasTurn) (hp : s.pending = some cmd)
    (hd : decode cmd = .ok i) : step s = exec i s.turnTaken := by
  have hfetch : s.turnTaken.fetch = some cmd := hp
  simp only [step_core hturn, coreTurn, hfetch, hd]

theorem step_of_decode_error {s : State} {cmd : Word} {e : CmdError} (hturn : s.CoreHasTurn)
    (hp : s.pending = some cmd) (hd : decode cmd = .error e) :
    step s = .next { s.turnTaken with
      pending := none
      status := { s.status with busy := false, done := true, err := true, errcode := e.code }
      errcmd := cmd
      irq := s.ctrl.ie } := by
  have hfetch : s.turnTaken.fetch = some cmd := hp
  simp only [step_core hturn, coreTurn, hfetch, hd]
  exact raiseError_eq cmd e s.turnTaken

theorem step_of_pending_none {s : State} (hturn : s.CoreHasTurn) (hp : s.pending = none) :
    step s = .next s.turnTaken := by
  have hfetch : s.turnTaken.fetch = none := hp
  simp only [step_core hturn, coreTurn, hfetch]

/-- Settles O5: CORE's step has these three ends. -/
theorem coreStepRunsPendingCommand : Obligations.CoreStepRunsPendingCommand := by
  intro s hturn
  exact ⟨fun _ _ => step_of_decode_ok hturn, fun _ _ => step_of_decode_error hturn, step_of_pending_none hturn⟩

/-- Settles O4: acceptance asks nothing of the word; the two checks of decode then give the two errors, and a word
decodes to NOP only as NOP's encoding. -/
theorem reservedEncodingsAreErrors : Obligations.ReservedEncodingsAreErrors := by
  refine ⟨fun s cmd rest hidle hag => ?_, fun s cmd hturn hp => ⟨fun hres => ?_, fun hle hne himm => ?_⟩,
    decode_eq_nop_iff⟩
  · exact ⟨_, step_write_cmd_idle hidle hag, rfl, rfl⟩
  · exact step_of_decode_error hturn hp (decode_of_reserved hres)
  · exact step_of_decode_error hturn hp (decode_of_operand hle hne himm)

end Sys2Proof.Machine
end

section
/-! PAD: the bytes and PLEN it writes (O40), its errors and HASH's (O41), a second PAD (O42), and its frame (O55). -/

namespace Sys2Proof.Machine

/-! ## What PAD writes (R131, R132) -/

/-- PAD writes M from LEN up to P(LEN) only. -/
theorem find_padEffect_of_outside {s : State} {o : Nat} (h : o < s.len.toNat ∨ padLength s.len.toNat ≤ o) :
    (padEffect s).mem.find o = s.mem.find o := by
  obtain ⟨hroom, -⟩ := padLength_bounds s.len.toNat
  rw [find_padEffect]
  rcases h with hbelow | habove
  · rw [if_pos hbelow]
  · rw [if_neg (by omega), if_neg (by omega), if_neg (by omega), if_neg (by omega)]

theorem find_padEffect_len (s : State) : (padEffect s).mem.find s.len.toNat = .written 0x80 := by
  rw [find_padEffect, if_neg (Nat.lt_irrefl _), if_pos rfl]

theorem find_padEffect_of_zeros {s : State} {o : Nat} (hlo : s.len.toNat < o) (hhi : o < padLength s.len.toNat - 8) :
    (padEffect s).mem.find o = .written 0x00 := by
  rw [find_padEffect, if_neg (by omega), if_neg (by omega), if_pos hhi]

/-- The last eight bytes hold the bit length, most significant first (R132, R135). -/
theorem find_padEffect_bitLength {s : State} (hlen : s.len.toNat < 2 ^ 61) {j : Nat} (hj : j < 8) :
    (padEffect s).mem.find (padLength s.len.toNat - 8 + j) =
      .written (BitVec.ofNat 8 (s.len.toNat * 8 / 256 ^ (7 - j))) := by
  obtain ⟨hroom, -⟩ := padLength_bounds s.len.toNat
  rw [find_padEffect, if_neg (by omega), if_neg (by omega), if_neg (by omega), if_pos (by omega),
    Nat.add_sub_cancel_left, extractLsb'_eq_ofNat _ hj, toNat_len_mul hlen]

/-- PAD, once its checks pass: M, PLEN and the completion fields (R131, R242). -/
theorem exec_pad_of_fits {s : State} (hf : s.PadFits) :
    exec .pad s = .next { s with
      mem := (padEffect s).mem, plen := BitVec.ofNat 32 (padLength s.len.toNat)
      pending := none, status := s.status.succeeded, irq := s.ctrl.ie } :=
  exec_of_setMem (i := .pad) (padBody_ok hf) (padEffect_frame s)

/-- Settles O40: M region by region, and P(LEN) within the buffer, hence within PLEN. -/
theorem padWritesThePadding : Obligations.PadWritesThePadding := by
  intro s hc hf
  obtain ⟨hroom, hmax, hmul⟩ := padLength_bounds s.len.toNat
  have hpositive : 64 ≤ padLength s.len.toNat := Nat.le_mul_of_pos_right 64 (Nat.succ_pos _)
  exact ⟨_, exec_pad_of_fits hf, fun _ hlo => find_padEffect_of_outside (.inl hlo), find_padEffect_len s,
    fun _ => find_padEffect_of_zeros, fun _ => find_padEffect_bitLength hf.1,
    fun _ hhi => find_padEffect_of_outside (.inr hhi), toNat_padEffect_plen hc hf, hmul, hpositive, hf.2, hroom, hmax⟩

/-! ## The errors of PAD and HASH (R131, R221) -/

theorem padBody_of_lenOverflow {s : State} (hlen : 2 ^ 61 ≤ s.len.toNat) : padBody s = .error .lenOverflow :=
  if_pos hlen

theorem padBody_of_capacity {s : State} (hlen : s.len.toNat < 2 ^ 61) (hcap : s.cfg.bufBytes < padLength s.len.toNat) :
    padBody s = .error .capacity := by
  rw [padBody, if_neg (Nat.not_le.mpr hlen), if_pos hcap]

/-- PAD and HASH end with the error of PAD's checks. -/
theorem body_eq_error_of_padBody {i : Instr} {s : State} {e : CmdError} (hi : i = .pad ∨ i = .hash)
    (h : padBody s = .error e) : Instr.body i s = .error e := by
  rcases hi with rfl | rfl
  · exact h
  · simp only [Instr.body, hashBody, h]

theorem encode_pad_or_hash {i : Instr} (hi : i = .pad ∨ i = .hash) :
    encode i = if i = .pad then 0x00000002 else 0x0000000A := by
  rcases hi with rfl | rfl <;> decide

/-- Settles O41: each error is that of PAD's first failing check, and an error only completes. -/
theorem padAndHashErrors : Obligations.PadAndHashErrors := by
  intro s i hi
  rw [← encode_pad_or_hash hi]
  exact ⟨fun hlen => exec_of_error (body_eq_error_of_padBody hi (padBody_of_lenOverflow hlen)),
    fun hlen hcap => exec_of_error (body_eq_error_of_padBody hi (padBody_of_capacity hlen hcap))⟩

/-! ## A second PAD (R136) -/

/-- Settles O42: PAD keeps LEN, so the second one passes the same checks and finds M, PLEN and the completion fields
as it would write them. -/
theorem padIsIdempotent : Obligations.PadIsIdempotent := by
  intro s t hf hw h
  have ht := Host.Outcome.next.inj (h.symm.trans (exec_pad_of_fits hf))
  have hfits : t.PadFits := ht ▸ hf
  have hmem : (padEffect t).mem = t.mem := padEffect_mem_of_padded hw (ht ▸ rfl) (ht ▸ rfl)
  rw [exec_pad_of_fits hfits, hmem, ht]
  rfl

/-! ## Frames -/

/-- An error's code is never that of success (R240). -/
theorem CmdError.code_ne_zero (e : CmdError) : e.code ≠ 0 := by cases e <;> decide

/-- What every command leaves of the host's side, and of ERR and ERRCMD when it succeeds (R242, R243). -/
theorem exec_keeps_hostSide {i : Instr} {s t : State} (h : exec i s = .next t) :
    s.SameHostSide t ∧ (t.status.errcode = 0 → t.errcmd = s.errcmd ∧ t.status.err = s.status.err) := by
  rcases exec_cases i s with ⟨e, -, h'⟩ | ⟨u, hb, h'⟩ <;> obtain rfl := Host.Outcome.next.inj (h'.symm.trans h)
  · exact ⟨⟨rfl, rfl, rfl, rfl, rfl, rfl, rfl⟩, fun hcode => absurd hcode (CmdError.code_ne_zero e)⟩
  · have hsame := body_sameControl hb
    have hstatus : (u.complete (encode i) none).status = s.status.succeeded := by
      rw [← hsame.status, ← Status.completed_none]; rfl
    refine ⟨⟨hsame.cfg, hsame.ctrl, hsame.lenLo, hsame.lenHi, ?_, hsame.agenda, hsame.reply⟩,
      fun _ => ⟨hsame.errcmd, ?_⟩⟩ <;> rw [hstatus] <;> rfl

/-- Settles O55: an error leaves all of M and the datapath, a success all but M from LEN to P(LEN) and PLEN. -/
theorem frameOfPad : Obligations.FrameOfPad := by
  intro s t h
  obtain ⟨hhost, hsuccess⟩ := exec_keeps_hostSide h
  rcases exec_cases .pad s with ⟨e, -, h'⟩ | ⟨u, hb, -⟩
  · obtain rfl := Host.Outcome.next.inj (h'.symm.trans h)
    exact ⟨hhost, rfl, rfl, rfl, rfl, rfl, rfl, hsuccess, fun _ _ => rfl⟩
  · obtain ⟨hf, -⟩ := padBody_eq_ok hb
    obtain rfl := Host.Outcome.next.inj ((exec_pad_of_fits hf).symm.trans h)
    exact ⟨hhost, rfl, rfl, rfl, rfl, rfl, rfl, hsuccess, fun _ => find_padEffect_of_outside⟩

end Sys2Proof.Machine
end

section
/-! The word scheduler: SCHED (O44), EXPAND (O45), SCHED as a load and EXPAND (O46), and the expansion's linearity
(O47). -/

namespace Sys2Proof.Machine

/-! ## W as a whole -/

theorem State.w_eq_ofFn {s : State} {f : Fin 80 → Elem Word} (h : ∀ i : Fin 80, s.wElem i = f i) :
    s.w = Vector.ofFn f := by
  refine Vector.ext fun i hi => ?_
  rw [← State.wElem_eq s hi, Vector.getElem_ofFn]
  exact h ⟨i, hi⟩

theorem State.wElem_congr {s t : State} (h : t.w = s.w) (i : Nat) : t.wElem i = s.wElem i := by
  rw [State.wElem, State.wElem, h]

theorem State.setWAll_setDraws_self (s : State) (w : Vector (Elem Word) 80) :
    (s.setWAll w).setDraws s.draws = s.setWAll w :=
  rfl

/-! ## The recurrence (R152) -/

/-- The recurrence of R152 over the words v 0 .. v 79. -/
def IsSchedule (v : Nat → Word) : Prop :=
  ∀ i, 16 ≤ i → i < 80 → v i = (v (i - 3) ^^^ v (i - 8) ^^^ v (i - 14) ^^^ v (i - 16)).rotateLeft 1

/-- The first 16 words determine the schedule (R155). -/
theorem IsSchedule.eq_of_eq_block {v u : Nat → Word} (hv : IsSchedule v) (hu : IsSchedule u)
    (hblock : ∀ i, i < 16 → v i = u i) (i : Nat) (hi : i < 80) : v i = u i := by
  induction i using Nat.strongRecOn with
  | ind i ih =>
    by_cases h16 : i < 16
    · exact hblock i h16
    · have h : 16 ≤ i := by omega
      rw [hv i h hi, hu i h hi, ih (i - 3) (by omega) (by omega), ih (i - 8) (by omega) (by omega),
        ih (i - 14) (by omega) (by omega), ih (i - 16) (by omega) (by omega)]

/-- Rotation only moves bits, so it distributes over XOR. -/
theorem rotateLeft_xor (x y : Word) (n : Nat) : (x ^^^ y).rotateLeft n = x.rotateLeft n ^^^ y.rotateLeft n := by
  apply BitVec.eq_of_getLsbD_eq
  intro i hi
  simp only [BitVec.getLsbD_rotateLeft, BitVec.getLsbD_xor]
  by_cases h : i < n % 32
  · simp [h]
  · simp [h, hi]

/-- Only XOR and rotation take part in the recurrence (R155). -/
theorem IsSchedule.xor {v u : Nat → Word} (hv : IsSchedule v) (hu : IsSchedule u) :
    IsSchedule fun i => v i ^^^ u i := by
  intro i h16 hi
  simp only [hv i h16 hi, hu i h16 hi, ← rotateLeft_xor]
  congr 1
  ac_rfl

/-! ## EXPAND (R152, R154) -/

/-- The word EXPAND leaves in W[i], for i in 16 .. 79. -/
def expandedWord (s : State) (i : Nat) : Word := expandValue (expandSteps (i - 16) s) i

/-- The word EXPAND reads at W[i-k] for W[i]. -/
def expandOperand (s : State) (i k : Nat) : Word := expandRead (expandSteps (i - 16) s) i k

theorem expandedWord_eq (s : State) (i : Nat) :
    expandedWord s i = (expandOperand s i 3 ^^^ expandOperand s i 8 ^^^ expandOperand s i 14
      ^^^ expandOperand s i 16).rotateLeft 1 :=
  rotl_eq_rotateLeft _ (by decide)

theorem wElem_expandEffect_of_lt (s : State) {i : Nat} (hi : i < 16) : (expandEffect s).wElem i = s.wElem i :=
  wElem_expandSteps_of_not s (Nat.le_refl 64) (.inl hi)

theorem wElem_expandEffect_of_ge (s : State) {i : Nat} (h16 : 16 ≤ i) (hi : i < 80) :
    (expandEffect s).wElem i = .written (expandedWord s i) :=
  wElem_expandSteps s (Nat.le_refl 64) h16 hi

/-- An operand from 16 on is the word an earlier step wrote (R152). -/
theorem expandOperand_of_ge (s : State) {i k : Nat} (hi : i < 80) (hk : k = 3 ∨ k = 8 ∨ k = 14 ∨ k = 16)
    (h16 : 16 ≤ i - k) : expandOperand s i k = expandedWord s (i - k) :=
  expandRead_written hk (wElem_expandSteps s (by omega) h16 (by omega))

/-- An operand below 16 is the word W held before, where it is written (R152). -/
theorem expandOperand_of_lt {s : State} {i k : Nat} {x : Word} (hi : i < 80)
    (hk : k = 3 ∨ k = 8 ∨ k = 14 ∨ k = 16) (h16 : i - k < 16) (hx : s.wElem (i - k) = .written x) :
    expandOperand s i k = x :=
  expandRead_written hk ((wElem_expandSteps_of_not s (by omega) (.inl h16)).trans hx)

theorem draws_expandEffect {s : State} (h : ∀ i, i < 16 → s.wElem i ≠ .unwritten) :
    (expandEffect s).draws = s.draws :=
  draws_expandSteps s (Nat.le_refl 64) h

theorem w_expandEffect (s : State) :
    (expandEffect s).w = Vector.ofFn fun i => if i.val < 16 then s.w[i] else .written (expandedWord s i.val) := by
  refine State.w_eq_ofFn fun i => ?_
  by_cases h16 : i.val < 16
  · rw [if_pos h16, wElem_expandEffect_of_lt s h16]
    exact State.wElem_eq s i.isLt
  · rw [if_neg h16, wElem_expandEffect_of_ge s (by omega) i.isLt]

theorem exec_expand (s : State) :
    exec .expand s = .next { s with
      w := (expandEffect s).w, draws := (expandEffect s).draws
      pending := none, status := s.status.succeeded, irq := s.ctrl.ie } :=
  exec_of_setWAll (i := .expand) rfl (expandEffect_frame s)

/-- Settles O45: each step reads below 16 what W held before and from 16 on what an earlier step wrote. -/
theorem expandFollowsTheRecurrence : Obligations.ExpandFollowsTheRecurrence := by
  intro s
  refine ⟨expandedWord s, expandOperand s, (expandEffect s).draws, ?_, fun i _ _ => expandedWord_eq s i,
    fun i k _ hi hk => ⟨expandOperand_of_ge s hi hk, fun _ => expandOperand_of_lt hi hk⟩, draws_expandEffect⟩
  rw [exec_expand, w_expandEffect]

/-- The schedule EXPAND builds on the block words x. -/
def expandedSchedule (x : Nat → Word) (s : State) (i : Nat) : Word := if i < 16 then x i else expandedWord s i

theorem expandedSchedule_of_lt (x : Nat → Word) (s : State) {i : Nat} (hi : i < 16) : expandedSchedule x s i = x i :=
  if_pos hi

theorem expandedSchedule_of_ge (x : Nat → Word) (s : State) {i : Nat} (h16 : 16 ≤ i) :
    expandedSchedule x s i = expandedWord s i :=
  if_neg (Nat.not_lt.mpr h16)

section WrittenBlock

variable {s : State} {x : Nat → Word} (h : ∀ i, i < 16 → s.wElem i = .written (x i))

include h

theorem wElem_expandEffect_of_written {i : Nat} (hi : i < 80) :
    (expandEffect s).wElem i = .written (expandedSchedule x s i) := by
  by_cases h16 : i < 16
  · rw [expandedSchedule_of_lt x s h16, wElem_expandEffect_of_lt s h16, h i h16]
  · rw [expandedSchedule_of_ge x s (by omega), wElem_expandEffect_of_ge s (by omega) hi]

theorem expandOperand_of_written {i k : Nat} (hi : i < 80) (hk : k = 3 ∨ k = 8 ∨ k = 14 ∨ k = 16) :
    expandOperand s i k = expandedSchedule x s (i - k) := by
  by_cases h16 : i - k < 16
  · rw [expandedSchedule_of_lt x s h16, expandOperand_of_lt hi hk h16 (h _ h16)]
  · rw [expandedSchedule_of_ge x s (by omega), expandOperand_of_ge s hi hk (by omega)]

theorem isSchedule_expandedSchedule : IsSchedule (expandedSchedule x s) := by
  intro i h16 hi
  have hoperand (k : Nat) := expandOperand_of_written h (k := k) hi
  rw [← hoperand 3 (by simp), ← hoperand 8 (by simp), ← hoperand 14 (by simp), ← hoperand 16 (by simp),
    expandedSchedule_of_ge x s h16]
  exact expandedWord_eq s i

/-- The schedule is in W when EXPAND has completed. -/
theorem exec_expand_of_written :
    ∃ t, exec .expand s = .next t ∧ ∀ i, i < 80 → t.wElem i = .written (expandedSchedule x s i) := by
  obtain ⟨t, hexec, -, -, -, hw, -⟩ := exec_fields_of_ok (i := .expand) (s := s) rfl
  exact ⟨t, hexec, fun i hi => (State.wElem_congr hw i).trans (wElem_expandEffect_of_written h hi)⟩

end WrittenBlock

/-- Settles O47: the XOR of the first two schedules is a schedule of the third block, and a block has only one. -/
theorem expansionIsLinear : Obligations.ExpansionIsLinear := by
  intro s1 s2 s3 x1 x2 h
  have h1 i (hi : i < 16) := (h i hi).1
  have h2 i (hi : i < 16) := (h i hi).2.1
  have h3 i (hi : i < 16) := (h i hi).2.2
  have hsum := (isSchedule_expandedSchedule h1).xor (isSchedule_expandedSchedule h2)
  have hxor := (isSchedule_expandedSchedule h3).eq_of_eq_block hsum fun i hi => by
    simp only [expandedSchedule_of_lt _ _ hi]
  obtain ⟨t1, hexec1, hw1⟩ := exec_expand_of_written h1
  obtain ⟨t2, hexec2, hw2⟩ := exec_expand_of_written h2
  obtain ⟨t3, hexec3, hw3⟩ := exec_expand_of_written h3
  exact ⟨t1, t2, t3, _, _, hexec1, hexec2, hexec3, fun i hi => ⟨hw1 i hi, hw2 i hi, hxor i hi ▸ hw3 i hi⟩⟩

/-! ## SCHED (R150, R153) -/

theorem schedBody_of_lt {b : Nat} {s : State} (h : b < s.plen.toNat / 64) : schedBody b s = .ok (schedEffect b s) :=
  if_neg (Nat.not_le.mpr h)

theorem schedBody_of_ge {b : Nat} {s : State} (h : s.plen.toNat / 64 ≤ b) : schedBody b s = .error .blockRange :=
  if_pos h

theorem exec_sched {b : Nat} {s : State} (h : b < s.plen.toNat / 64) :
    exec (.sched b) s = .next { s with
      w := (schedEffect b s).w, draws := (schedEffect b s).draws
      pending := none, status := s.status.succeeded, irq := s.ctrl.ie } :=
  exec_of_setWAll (i := .sched b) (schedBody_of_lt h) (schedEffect_frame b s)

/-- SCHED is EXPAND from the state with the block loaded, whether or not its bytes are written (R153, R154). -/
theorem exec_sched_eq_exec_expand {b : Nat} {s : State} (h : b < s.plen.toNat / 64) :
    exec (.sched b) s = exec .expand (loadBlock b s) :=
  (exec_of_ok (i := .sched b) (schedBody_of_lt h)).trans (exec_of_ok (i := .expand) rfl).symm

/-- The word SCHED b loads into W[i], for i in 0 .. 15 (R150). -/
def loadedWord (b : Nat) (s : State) (i : Nat) : Word := loadValue (loadSteps b i s) b i

theorem loadBlock_frame (b : Nat) (s : State) :
    loadBlock b s = (s.setWAll (loadBlock b s).w).setDraws (loadBlock b s).draws := by
  rw [loadBlock_eq]
  exact loadSteps_frame b 16 s

theorem wElem_loadBlock (b : Nat) (s : State) (i : Nat) :
    (loadBlock b s).wElem i = if i < 16 then .written (loadedWord b s i) else s.wElem i :=
  wElem_loadSteps s (by decide) i

theorem wElem_loadBlock_of_lt (b : Nat) (s : State) {i : Nat} (hi : i < 16) :
    (loadBlock b s).wElem i = .written (loadedWord b s i) := by
  rw [wElem_loadBlock, if_pos hi]

/-- The loaded words are big-endian (R150). -/
theorem wordByte_loadedWord {b : Nat} {s : State} {i j : Nat} {x : Byte} (hj : j < 4)
    (h : s.mem.find (64 * b + 4 * i + j) = .written x) : wordByte (loadedWord b s i) j = x :=
  wordByte_loadValue hj (by rw [loadSteps_mem, h])

theorem draws_loadBlock {b : Nat} {s : State}
    (h : ∀ o, 64 * b ≤ o → o < 64 * b + 64 → s.mem.find o ≠ .unwritten) : (loadBlock b s).draws = s.draws :=
  draws_loadSteps s (Nat.le_refl 16) h

/-- After the load W[0..15] are written, so only the bytes of M can cost a free value (R281). -/
theorem draws_schedEffect {b : Nat} {s : State}
    (h : ∀ o, 64 * b ≤ o → o < 64 * b + 64 → s.mem.find o ≠ .unwritten) : (schedEffect b s).draws = s.draws := by
  have hwritten : ∀ i, i < 16 → (loadBlock b s).wElem i ≠ .unwritten := fun i hi => by
    simp [wElem_loadBlock_of_lt b s hi]
  exact (draws_expandEffect hwritten).trans (draws_loadBlock h)

theorem decode_sched {b : Nat} (hb : b < 2 ^ 24) : decode (BitVec.ofNat 32 (b * 2 ^ 8 + 0x03)) = .ok (.sched b) := by
  have hcmd : (BitVec.ofNat 32 (b * 2 ^ 8 + 0x03)).toNat = b * 256 + 3 := Nat.mod_eq_of_lt (by omega)
  rw [decode_of_sched (by omega), hcmd, show (b * 256 + 3) / 256 = b by omega]

/-- Settles O44: in range the load leaves W[0..15] written and the expansion builds on them; out of range the check
fails. -/
theorem schedBuildsTheSchedule : Obligations.SchedBuildsTheSchedule := by
  refine ⟨fun _ => decode_sched, fun s b hb => ?_, fun s b hb => exec_of_error (i := .sched b) (schedBody_of_ge hb)⟩
  have hloaded i (hi : i < 16) := wElem_loadBlock_of_lt b s hi
  have hw : (schedEffect b s).w = Vector.ofFn fun i => .written (expandedSchedule (loadedWord b s) (loadBlock b s) i) :=
    State.w_eq_ofFn fun i => wElem_expandEffect_of_written hloaded i.isLt
  refine ⟨expandedSchedule (loadedWord b s) (loadBlock b s), (schedEffect b s).draws, ?_, fun i j x hi hj hx => ?_,
    isSchedule_expandedSchedule hloaded, draws_schedEffect⟩
  · rw [exec_sched hb, hw]
  · rw [expandedSchedule_of_lt _ _ hi]
    exact wordByte_loadedWord hj hx

section WrittenBytes

variable {b : Nat} {s : State} {x : Nat → Byte} (h : ∀ k, k < 64 → s.mem.find (64 * b + k) = .written (x k))

include h

theorem find_ne_unwritten_of_written (o : Nat) (hlo : 64 * b ≤ o) (hhi : o < 64 * b + 64) :
    s.mem.find o ≠ .unwritten := by
  obtain ⟨k, rfl⟩ := Nat.exists_eq_add_of_le hlo
  simp [h k (by omega)]

theorem loadedWord_of_written {i : Nat} (hi : i < 16) :
    loadedWord b s i = x (4 * i) ++ x (4 * i + 1) ++ x (4 * i + 2) ++ x (4 * i + 3) := by
  have hbyte (j : Nat) (hj : j < 4) : (loadSteps b i s).mem.find (64 * b + 4 * i + j) = .written (x (4 * i + j)) := by
    rw [loadSteps_mem, Nat.add_assoc, h _ (by omega)]
  exact loadValue_written (hbyte 0 (by decide)) (hbyte 1 (by decide)) (hbyte 2 (by decide)) (hbyte 3 (by decide))

theorem w_loadBlock_of_written :
    (loadBlock b s).w = Vector.ofFn fun i => if i.val < 16
      then .written (x (4 * i.val) ++ x (4 * i.val + 1) ++ x (4 * i.val + 2) ++ x (4 * i.val + 3)) else s.w[i] := by
  refine State.w_eq_ofFn fun i => ?_
  rw [wElem_loadBlock]
  by_cases h16 : i.val < 16
  · rw [if_pos h16, if_pos h16, loadedWord_of_written h h16]
  · rw [if_neg h16, if_neg h16]
    exact State.wElem_eq s i.isLt

/-- The load of a written block writes W[0..15] and nothing else (R150, R153). -/
theorem loadBlock_of_written : loadBlock b s = s.setWAll (loadBlock b s).w := by
  have hframe := loadBlock_frame b s
  rw [draws_loadBlock (find_ne_unwritten_of_written h)] at hframe
  exact hframe.trans (State.setWAll_setDraws_self s _)

end WrittenBytes

/-- Settles O46: SCHED is EXPAND from the loaded state, and the load of a written block only writes W[0..15]. -/
theorem schedEqualsLoadThenExpand : Obligations.SchedEqualsLoadThenExpand := by
  intro s b x hb h
  rw [exec_sched_eq_exec_expand hb, loadBlock_of_written h, w_loadBlock_of_written h, State.setWAll]

end Sys2Proof.Machine
end

section
/-! The compressor: the constants (O15), INIT (O33), LOADW (O34), ROUND (O35), FEEDFWD (O36), COMPRESS (O37), COMPRESS as
82 commands (O38), the round counter (O39), and the frame of the commands that store nothing in M (O54). -/

namespace Sys2Proof

/-- A command without an operand takes no other imm24 than 0 (R101, R106). -/
theorem decode_append_of_imm_ne_zero {op : BitVec 8} (hle : op.toNat ≤ 0x0A) (hne : op.toNat ≠ 0x03)
    {imm : BitVec 24} (himm : imm ≠ 0) : decode (imm ++ op) = .error .badOperand := by
  have hfields : (imm ++ op : Word).toNat = imm.toNat * 256 + op.toNat := toNat_append_fields imm op
  have hop : (imm ++ op : Word).toNat % 256 = op.toNat := by omega
  have hpos : imm.toNat ≠ 0 := fun h => himm (BitVec.toNat_inj.mp h)
  exact decode_of_operand (by omega) (by omega) (by omega)

end Sys2Proof

namespace Sys2Proof.Machine

/-! ## Constants, INIT and LOADW (R170, R171, R174, R175) -/

/-- Settles O15: the tables are the literals of R170 and R171. -/
theorem constantTableValues : Obligations.ConstantTableValues := ⟨rfl, rfl, rfl, rfl, rfl⟩

theorem exec_init (s : State) :
    exec .init s = .next { s with
      h := iv, wk := Working.ofVec iv, rcnt := 0
      pending := none, status := s.status.succeeded, irq := s.ctrl.ie } :=
  exec_of_ok (i := .init) rfl

/-- Settles O33: INIT depends on STATUS, CTRL and nothing it writes, so a second one writes the same again. -/
theorem initLoadsTheInitialDigest : Obligations.InitLoadsTheInitialDigest := by
  refine ⟨decode_encode (i := .init) rfl, fun _ => decode_append_of_imm_ne_zero (by decide) (by decide), exec_init,
    fun s t h => ?_⟩
  obtain rfl := Host.Outcome.next.inj ((exec_init s).symm.trans h)
  exact exec_init _

/-- Settles O34: LOADW has no check, so its effect at any RCNT is all it does. -/
theorem loadwStartsABlock : Obligations.LoadwStartsABlock :=
  ⟨decode_encode (i := .loadw) rfl, fun _ => decode_append_of_imm_ne_zero (by decide) (by decide),
    fun _ => exec_of_ok (i := .loadw) rfl⟩

/-! ## ROUND (R172, R173, R176) -/

theorem roundBody_of_lt {s : State} (h : s.rcnt.toNat < 80) : roundBody s = .ok (roundEffect s) :=
  if_neg (Nat.not_le.mpr h)

theorem roundBody_of_ge {s : State} (h : 80 ≤ s.rcnt.toNat) : roundBody s = .error .roundOverrun := if_pos h

/-- The stage function of a round, by its 20-round band (R172, R173). -/
theorem stageFn_stageOf {t : Nat} (h : t < 80) (x y z : Word) :
    stageFn (stageOf t) x y z = if t < 20 then (x &&& y) ||| (~~~x &&& z)
      else if t < 40 then x ^^^ y ^^^ z
      else if t < 60 then (x &&& y) ||| (x &&& z) ||| (y &&& z)
      else x ^^^ y ^^^ z := by
  rw [stageOf_eq h]
  simp only [apply_ite (stageFn · x y z)]
  rfl

/-- The constant of a round, by its 20-round band (R171, R173). -/
theorem roundConst_stageOf {t : Nat} (h : t < 80) :
    roundConst (stageOf t) = if t < 20 then roundConst 0 else if t < 40 then roundConst 1
      else if t < 60 then roundConst 2 else roundConst 3 := by
  rw [stageOf_eq h]
  simp only [apply_ite roundConst]

theorem exec_round {s : State} (h : s.rcnt.toNat < 80) :
    exec .round s = .next { s with
      wk := roundStep s.rcnt.toNat (roundWord s) s.wk
      rcnt := s.rcnt + 1
      draws := s.draws + (s.wElem s.rcnt.toNat).cost
      pending := none, status := s.status.succeeded, irq := s.ctrl.ie } :=
  exec_of_ok_of_eq (i := .round) (roundBody_of_lt h) (roundEffect_eq s)

theorem Elem.cost_eq_ite {α : Type} [DecidableEq α] (x : Elem α) : x.cost = if x = .unwritten then 1 else 0 := by
  cases x <;> rfl

/-- The word a round reads is the one in W[RCNT], or the next free value (R281). -/
theorem roundWord_eq {s : State} {v : Word}
    (h : s.wElem s.rcnt.toNat = .written v ∨ (s.wElem s.rcnt.toNat = .unwritten ∧ v = Config.draw s.draws)) :
    roundWord s = v := by
  rcases h with hw | ⟨hu, rfl⟩
  · rw [roundWord, hw, Elem.value_written]
  · rw [roundWord, hu, Elem.value_unwritten, BitVec.setWidth_eq]

/-- Settles O35: below 80 the check passes and the stage is the band of RCNT; from 80 on the check fails. -/
theorem roundPerformsOneRound : Obligations.RoundPerformsOneRound := by
  refine ⟨decode_encode (i := .round) rfl, fun _ => decode_append_of_imm_ne_zero (by decide) (by decide),
    fun s v hlt hv => ?_, fun s hge => exec_of_error (i := .round) (roundBody_of_ge hge)⟩
  have hrcnt : s.rcnt + 1 = BitVec.ofNat 7 (s.rcnt.toNat + 1) := by simp [BitVec.ofNat_add]
  have hdraws : s.draws + (s.wElem s.rcnt.toNat).cost =
      if s.wElem s.rcnt.toNat = .unwritten then s.draws + 1 else s.draws := by
    rw [Elem.cost_eq_ite]; split <;> rfl
  rw [exec_round hlt, roundWord_eq hv, hrcnt, hdraws, roundStep, stageFn_stageOf hlt, roundConst_stageOf hlt,
    rotl_eq_rotateLeft _ (by decide), rotl_eq_rotateLeft _ (by decide)]

/-! ## FEEDFWD (R177) -/

theorem feedfwdBody_of_eq {s : State} (h : s.rcnt.toNat = 80) : feedfwdBody s = .ok (feedfwdEffect s) :=
  if_neg (not_not.mpr h)

theorem feedfwdBody_of_ne {s : State} (h : s.rcnt.toNat ≠ 80) : feedfwdBody s = .error .roundIncomplete := if_pos h

/-- Settles O36: the check compares RCNT with 80, and a success leaves RCNT = 0, where the next one fails. -/
theorem feedfwdAddsTheSnapshot : Obligations.FeedfwdAddsTheSnapshot := by
  refine ⟨decode_encode (i := .feedfwd) rfl, fun _ => decode_append_of_imm_ne_zero (by decide) (by decide),
    fun s h80 => exec_of_ok (i := .feedfwd) (feedfwdBody_of_eq h80),
    fun s hne => exec_of_error (i := .feedfwd) (feedfwdBody_of_ne hne), fun s t h80 h => ?_⟩
  obtain rfl := Host.Outcome.next.inj ((exec_of_ok (i := .feedfwd) (feedfwdBody_of_eq h80)).symm.trans h)
  exact ⟨_, exec_of_error (i := .feedfwd) (feedfwdBody_of_ne (by simp [feedfwdEffect])), rfl, rfl⟩

/-! ## COMPRESS (R178, R179) -/

theorem ofVec_addDigest (h : Vector Word 5) (x : Working) :
    Working.ofVec (addDigest h x) = ⟨h[0] + x.a, h[1] + x.b, h[2] + x.c, h[3] + x.d, h[4] + x.e⟩ := rfl

theorem body_compress (s : State) : Instr.body .compress s = .ok (compressEffect s) := rfl

theorem exec_compress (s : State) :
    exec .compress s = .next { s with
      h := addDigest s.h (rounds80 (roundWordAt (loadwEffect s)) (Working.ofVec s.h))
      wk := Working.ofVec (addDigest s.h (rounds80 (roundWordAt (loadwEffect s)) (Working.ofVec s.h)))
      rcnt := 0
      draws := (roundEffect^[80] (loadwEffect s)).draws
      pending := none, status := s.status.succeeded, irq := s.ctrl.ie } := by
  rw [exec_of_ok_of_eq (body_compress s) (compressEffect_eq s)]

theorem roundWordAt_of_written {s : State} {i : Nat} {x : Word} (h : s.wElem i = .written x) : roundWordAt s i = x := by
  rw [roundWordAt, h, Elem.value_written]

/-- Settles O37: the words are those the rounds read in their run from LOADW, which leaves W as it is. -/
theorem compressComputesRounds80 : Obligations.CompressComputesRounds80 := by
  refine ⟨decode_encode (i := .compress) rfl, fun _ => decode_append_of_imm_ne_zero (by decide) (by decide), fun s =>
    ⟨roundWordAt (loadwEffect s), (roundEffect^[80] (loadwEffect s)).draws, fun i x _ hx => ?_, fun hw => ?_, ?_⟩⟩
  · exact roundWordAt_of_written (s := loadwEffect s) hx
  · exact draws_rounds 80 (Nat.le_refl 80) (loadwEffect s) rfl hw
  · rw [exec_compress, ofVec_addDigest]
    rfl

/-! ## Rounds as commands (R180, R182) -/

theorem runBodies_cons {i : Instr} {is : List Instr} {s t : State} (h : Instr.body i s = .ok t) :
    runBodies (i :: is) s = runBodies is t := by
  rw [runBodies, h]

/-- While the counter does not pass 80, every ROUND of a run passes its check. -/
theorem runBodies_replicate_round {k : Nat} {s : State} (h : s.rcnt.toNat + k ≤ 80) :
    runBodies (List.replicate k .round) s = .ok (roundEffect^[k] s) := by
  induction k generalizing s with
  | zero => rfl
  | succ k ih =>
    have hbody : Instr.body .round s = .ok (roundEffect s) := roundBody_of_lt (by omega)
    have hrcnt : (roundEffect s).rcnt.toNat = s.rcnt.toNat + 1 := by
      rw [roundEffect_eq]
      exact BitVec.toNat_add_of_lt (by simp; omega)
    rw [List.replicate_succ, runBodies_cons hbody, Function.iterate_succ_apply]
    exact ih (by omega)

/-- LOADW and k rounds pass their checks (R182). -/
theorem runBodies_loadw_rounds {k : Nat} (hk : k ≤ 80) (s : State) :
    runBodies (.loadw :: List.replicate k .round) s = .ok (roundEffect^[k] (loadwEffect s)) :=
  runBodies_replicate_round (s := loadwEffect s) (by simpa [loadwEffect] using hk)

theorem rcnt_rounds_loadw {k : Nat} (hk : k ≤ 80) (s : State) :
    (roundEffect^[k] (loadwEffect s)).rcnt.toNat = k := by
  rw [rounds_loadw k hk]
  exact Nat.mod_eq_of_lt (by omega)

/-- Settles O39: the k rounds pass their checks, and each counts. -/
theorem roundCounterCountsRounds : Obligations.RoundCounterCountsRounds := by
  intro s k hk
  exact ⟨_, issueAll_of_runBodies (runBodies_loadw_rounds hk s), rcnt_rounds_loadw hk s, rfl⟩

/-- The 82 commands pass their checks, and their effects in turn are that of COMPRESS (R178, R180). -/
theorem runBodies_eightyTwoCommands (s : State) :
    runBodies (.loadw :: List.replicate 80 .round ++ [.feedfwd]) s = .ok (compressEffect s) := by
  have hfeed : Instr.body .feedfwd (roundEffect^[80] (loadwEffect s)) = .ok (compressEffect s) :=
    feedfwdBody_of_eq (rcnt_rounds_loadw (Nat.le_refl 80) s)
  exact (runBodies_append (runBodies_loadw_rounds (Nat.le_refl 80) s)).trans (runBodies_cons hfeed)

/-- Settles O38: both lists pass their checks and have one effect, so they complete in one state. -/
theorem compressEqualsEightyTwoCommands : Obligations.CompressEqualsEightyTwoCommands := by
  intro s
  have hcompress : runBodies [.compress] s = .ok (compressEffect s) := runBodies_cons (body_compress s)
  exact (issueAll_of_runBodies (runBodies_eightyTwoCommands s)).trans (issueAll_of_runBodies hcompress).symm

/-! ## Frame -/

/-- What the effect of a command other than PAD and HASH leaves of M and of each register it does not name. -/
theorem body_frame_of_stores_nothing {i : Instr} {s u : State} (hpad : i ≠ .pad) (hhash : i ≠ .hash)
    (h : Instr.body i s = .ok u) :
    u.mem = s.mem ∧ u.plen = s.plen ∧ (i ≠ .init → i ≠ .feedfwd → i ≠ .compress → u.h = s.h) ∧
    (i ≠ .init → i ≠ .loadw → i ≠ .round → i ≠ .feedfwd → i ≠ .compress → u.wk = s.wk ∧ u.rcnt = s.rcnt) ∧
    ((∀ b, i ≠ .sched b) → i ≠ .expand → u.w = s.w) ∧ (i ≠ .encode → u.hex = s.hex) := by
  obtain ⟨hmem, hhex, hrcnt, hh, hwk, hw⟩ := body_frame h
  simp only [hpad, hhash, or_false, false_and, false_or, ne_eq, not_false_eq_true, true_and] at hmem hhex hrcnt hh hwk hw
  refine ⟨hmem.1, hmem.2, fun hi hf hc => ?_, fun hi hl hr hf hc => ⟨?_, ?_⟩, fun hs he => ?_, fun he => ?_⟩
  · simpa [hi, hf, hc] using hh
  · simpa [hi, hl, hr, hf, hc] using hwk
  · simpa [hi, hl, hr, hf, hc] using hrcnt
  · simpa [hs, he] using hw
  · simpa [he] using hhex

/-- Settles O54: an error leaves the whole datapath, and a success what the command's effect leaves. -/
theorem frameOfCommandsThatStoreNothing : Obligations.FrameOfCommandsThatStoreNothing := by
  intro i s t hpad hhash h
  obtain ⟨hhost, hsuccess⟩ := exec_keeps_hostSide h
  rcases exec_cases i s with ⟨e, -, h'⟩ | ⟨u, hb, h'⟩ <;> obtain rfl := Host.Outcome.next.inj (h'.symm.trans h)
  · exact ⟨hhost, fun _ => rfl, rfl, hsuccess, fun _ _ _ => rfl, fun _ _ _ _ _ => ⟨rfl, rfl⟩, fun _ _ => rfl,
      fun _ => rfl⟩
  · obtain ⟨hmem, hplen, hregisters⟩ := body_frame_of_stores_nothing hpad hhash hb
    exact ⟨hhost, fun o => congrArg (Memory.find · o) hmem, hplen, hsuccess, hregisters⟩

end Sys2Proof.Machine
end

section
/-! The hex encoder: the characters ENCODE writes (O48), and the digest read back from them (O49). -/

namespace Sys2Proof.Machine

/-! ## The text ENCODE writes (R210, R211) -/

theorem exec_encode (s : State) :
    exec .encode s = .next { s with
      hex := Vector.ofFn fun j => .written (hexText s.h j)
      pending := none, status := s.status.succeeded, irq := s.ctrl.ie } :=
  exec_of_setHex (i := .encode) rfl rfl

/-- The text by character number, where `hexText` takes the number with its bound. -/
def hexCharAt (h : Vector Word 5) (j : Nat) : Byte := hexText h (Fin.ofNat 40 j)

theorem hexCharAt_of_lt (h : Vector Word 5) {j : Nat} (hj : j < 40) : hexCharAt h j = hexText h ⟨j, hj⟩ :=
  congrArg (hexText h) (Fin.ext (Nat.mod_eq_of_lt hj))

/-- Settles O48: the text is that of H character by character, and each character's code is that of its nibble. -/
theorem encodeWritesHexText : Obligations.EncodeWritesHexText := by
  intro s
  refine ⟨hexCharAt s.h, ?_, fun j hj => ⟨fun hdigit => ?_, fun hletter => ?_⟩⟩
  · have htext : hexText s.h = fun j => hexCharAt s.h j.val := funext fun j => (hexCharAt_of_lt s.h j.isLt).symm
    rw [exec_encode, htext]
  · rw [hexCharAt_of_lt s.h hj, hexText_eq, if_pos hdigit]
  · rw [hexCharAt_of_lt s.h hj, hexText_eq, if_neg (Nat.not_le.mpr hletter)]

/-! ## The digest of a text (R213) -/

/-- Bit i of H[k] stands in nibble 7 - i div 4 of that word (R210, most significant first). -/
theorem getLsbD_nibble (h : Vector Word 5) {k i : Nat} (hk : k < 5) (hi : i < 32) :
    (nibble h ⟨8 * k + (7 - i / 4), by omega⟩).getLsbD (i % 4) = h[k].getLsbD i := by
  have hword : (8 * k + (7 - i / 4)) / 8 = k := by omega
  have hbit : 28 - 4 * ((8 * k + (7 - i / 4)) % 8) + i % 4 = i := by omega
  have hin : i % 4 < 4 := Nat.mod_lt _ (by decide)
  simp only [nibble, BitVec.getLsbD_extractLsb', hword, hbit, hin, decide_true, Bool.true_and]

/-- The nibbles hold every bit of the digest. -/
theorem nibble_injective {g h : Vector Word 5} (heq : ∀ j, nibble g j = nibble h j) : g = h := by
  refine Vector.ext fun k hk => BitVec.eq_of_getLsbD_eq fun i hi => ?_
  rw [← getLsbD_nibble g hk hi, heq, getLsbD_nibble h hk hi]

/-- No two digests have the same text (R213). -/
theorem hexText_injective : Function.Injective hexText := fun _ _ heq =>
  nibble_injective fun j => hexChar_inj _ _ (congrFun heq j)

/-- Settles O49: HEX holds the text of H, and a text has one digest. -/
theorem hexTextDeterminesDigest : Obligations.HexTextDeterminesDigest := by
  intro s1 s2 t1 t2 h1 h2 hhex
  obtain rfl := Host.Outcome.next.inj ((exec_encode s1).symm.trans h1)
  obtain rfl := Host.Outcome.next.inj ((exec_encode s2).symm.trans h2)
  refine hexText_injective (funext fun j => Elem.written.inj ?_)
  simpa using congrArg (·[j]) hhex

end Sys2Proof.Machine
end

section
/-! The top level: no step stops the block (O6), NOP (O32), and HASH: it completes on every message that fits (O53), it
is its components one after another (O51), its result on a written message is the reference's (O50) and depends on that
message alone (O52), and its frame (O56). -/

namespace Sys2Proof.Machine

/-! ## Every step answers (R224, R246) -/

theorem exec_answers (i : Instr) (s : State) : ∃ t, exec i s = .next t := by
  rcases exec_cases i s with ⟨e, -, h⟩ | ⟨t, -, h⟩
  · exact ⟨_, h⟩
  · exact ⟨_, h⟩

theorem coreTurn_answers (s : State) : ∃ t, coreTurn s = .next t := by
  rcases coreTurn_cases s with ⟨-, h⟩ | ⟨cmd, e, -, -, h⟩ | ⟨cmd, i, -, -, h⟩
  · exact ⟨_, h⟩
  · exact ⟨_, h⟩
  · rw [h]; exact exec_answers i s

/-- Settles O6: an access and a reset answer by definition, and a turn of CORE answers because every command does. -/
theorem noStepEverStops : Obligations.NoStepEverStops := by
  intro s
  rcases step_cases s with ⟨-, h⟩ | ⟨addr, sz, rest, -, h⟩ | ⟨addr, sz, v, rest, -, h⟩ | ⟨rest, -, h⟩
  · rw [h]; exact coreTurn_answers _
  · exact ⟨_, h⟩
  · exact ⟨_, h⟩
  · exact ⟨_, h⟩

/-! ## NOP (R220) -/

/-- Settles O32: NOP has no check and no effect, so completion is all it does. -/
theorem nopOnlyCompletes : Obligations.NopOnlyCompletes :=
  ⟨decode_encode (i := .nop) rfl, fun _ => decode_append_of_imm_ne_zero (by decide) (by decide),
    fun _ => exec_of_ok (i := .nop) rfl⟩

/-! ## The effect of HASH (R221) -/

/-- What HASH does once PAD's checks pass: PAD, INIT, every block in order, ENCODE. -/
def hashEffect (s : State) : State :=
  encodeEffect (hashBlocks (padEffect s).blocks (initEffect (padEffect s)))

theorem body_hash {s : State} (hf : s.PadFits) : Instr.body .hash s = .ok (hashEffect s) := hashBody_ok hf

/-- The padded message has P(LEN) div 64 blocks, which PLEN holds without loss (R130, R151). -/
theorem blocks_padEffect {s : State} (hc : s.cfg.wf) (hf : s.PadFits) :
    (padEffect s).blocks = (s.len.toNat + 8) / 64 + 1 := by
  rw [State.blocks, toNat_padEffect_plen hc hf, padLength_div]

theorem body_init (s : State) : Instr.body .init s = .ok (initEffect s) := rfl

/-- INIT leaves M, PLEN and the count of free values (R174). -/
theorem initEffect_frame (s : State) :
    (initEffect s).mem = s.mem ∧ (initEffect s).blocks = s.blocks ∧ (initEffect s).draws = s.draws := by
  simp [initEffect, State.blocks]

theorem body_encode (s : State) : Instr.body .encode s = .ok (encodeEffect s) := rfl

/-- ENCODE writes HEX alone (R211). -/
theorem encodeEffect_frame (s : State) :
    (encodeEffect s).h = s.h ∧ (encodeEffect s).wk = s.wk ∧ (encodeEffect s).w = s.w ∧
      (encodeEffect s).draws = s.draws := by
  simp [encodeEffect]

/-- HEX holds the text of H after HASH, whatever the message. -/
theorem hex_hashEffect (s : State) :
    (hashEffect s).hex = Vector.ofFn fun j => .written (hexText (hashEffect s).h j) := by
  simp [hashEffect, encodeEffect]

/-! ## HASH on any message -/

/-- COMPRESS ends each block with FEEDFWD, which leaves A..E = H (R177). -/
theorem wk_hashBlock (s : State) (b : Nat) : (hashBlock s b).wk = Working.ofVec (hashBlock s b).h := by
  rw [hashBlock, compressEffect_eq]

/-- SCHED writes all of W, and COMPRESS leaves it (R153, R178). -/
theorem wElem_hashBlock_ne_unwritten (s : State) (b : Nat) {i : Nat} (hi : i < 80) :
    (hashBlock s b).wElem i ≠ .unwritten := by
  obtain ⟨v, hv⟩ := wElem_schedEffect b s hi
  rw [hashBlock, wElem_compressEffect, hv]
  exact nofun

/-- Every padded message has a last block, which ENCODE alone follows (R130, R221). -/
theorem hashEffect_eq_encode_hashBlock {s : State} (hc : s.cfg.wf) (hf : s.PadFits) :
    ∃ u b, hashEffect s = encodeEffect (hashBlock u b) :=
  ⟨_, _, by rw [hashEffect, blocks_padEffect hc hf, hashBlocks_succ]⟩

theorem wk_hashEffect {s : State} (hc : s.cfg.wf) (hf : s.PadFits) :
    (hashEffect s).wk = Working.ofVec (hashEffect s).h := by
  obtain ⟨u, b, he⟩ := hashEffect_eq_encode_hashBlock hc hf
  obtain ⟨hh, hwk, -⟩ := encodeEffect_frame (hashBlock u b)
  rw [he, hwk, hh, wk_hashBlock]

theorem wElem_hashEffect_ne_unwritten {s : State} (hc : s.cfg.wf) (hf : s.PadFits) {i : Nat} (hi : i < 80) :
    (hashEffect s).wElem i ≠ .unwritten := by
  obtain ⟨u, b, he⟩ := hashEffect_eq_encode_hashBlock hc hf
  obtain ⟨-, -, hw, -⟩ := encodeEffect_frame (hashBlock u b)
  rw [he, State.wElem_congr hw]
  exact wElem_hashBlock_ne_unwritten u b hi

/-- Settles O53: HASH's checks are PAD's, and its effect writes these registers whatever M holds. -/
theorem hashCompletesOnUnwrittenMessages : Obligations.HashCompletesOnUnwrittenMessages := by
  intro s hc hf
  obtain ⟨t, ht, hdone, hh, hwk, hw, hhex, -, hplen, hrcnt, -⟩ := exec_fields_of_ok (body_hash hf)
  obtain ⟨-, hpad, hzero⟩ := hashBody_frame (body_hash hf)
  refine ⟨t, ht, hdone, hrcnt.trans hzero, ?_, ?_, fun i hi => ?_, fun j hj => ?_⟩
  · rw [hwk, wk_hashEffect hc hf, ← hh]; rfl
  · rw [hplen, hpad, toNat_padEffect_plen hc hf, padLength]
  · rw [State.wElem_congr hw]; exact wElem_hashEffect_ne_unwritten hc hf hi
  · rw [State.hexElem_eq _ hj]; simp [hhex, hex_hashEffect]

/-! ## HASH as its components (R221, R285) -/

/-- SCHED b and COMPRESS pass their checks for each of the first n blocks, and do what HASH does with them. -/
theorem runBodies_blocks {n : Nat} {s : State} (hn : n ≤ s.blocks) :
    runBodies ((List.range n).flatMap fun b => [.sched b, .compress]) s = .ok (hashBlocks n s) := by
  induction n with
  | zero => rfl
  | succ n ih =>
    obtain ⟨-, -, hplen, -⟩ := hashBlocks_frame n s
    have hsched : Instr.body (.sched n) (hashBlocks n s) = .ok (schedEffect n (hashBlocks n s)) := by
      refine if_neg (Nat.not_le.mpr ?_)
      rw [State.blocks, hplen]; exact hn
    rw [List.range_succ, List.flatMap_append, runBodies_append (ih (by omega)), hashBlocks_succ]
    exact (runBodies_cons hsched).trans (runBodies_cons (body_compress _))

/-- The component commands pass their checks, and their effects in turn are that of HASH. -/
theorem runBodies_components {s : State} (hf : s.PadFits) :
    runBodies (Instr.pad :: Instr.init :: (List.range (padEffect s).blocks).flatMap
      (fun b => [Instr.sched b, Instr.compress]) ++ [Instr.encode]) s = .ok (hashEffect s) := by
  obtain ⟨-, hsame, -⟩ := initEffect_frame (padEffect s)
  have hpad : Instr.body .pad s = .ok (padEffect s) := padBody_ok hf
  have hinit : runBodies [.pad, .init] s = .ok (initEffect (padEffect s)) :=
    (runBodies_cons hpad).trans (runBodies_cons (body_init _))
  have hblocks := (runBodies_append hinit).trans (runBodies_blocks hsame.ge)
  exact (runBodies_append hblocks).trans (runBodies_cons (body_encode _))

/-- Settles O51: both lists pass their checks and have one effect, so they complete in one state. -/
theorem hashEqualsItsComponents : Obligations.HashEqualsItsComponents := by
  intro s hc hf
  have hhash : runBodies [.hash] s = .ok (hashEffect s) := runBodies_cons (body_hash hf)
  rw [← blocks_padEffect hc hf]
  exact (issueAll_of_runBodies (runBodies_components hf)).trans (issueAll_of_runBodies hhash).symm

/-! ## HASH on a written message (R222, R223) -/

/-- The reference's schedule of the last block of the padded message. -/
def lastSchedule (msg : List Byte) : List Word :=
  Reference.schedule (Reference.pad msg) ((Reference.pad msg).length / 64 - 1)

/-- The registers hold the reference's results for msg: they are a function of the message alone. -/
structure State.HoldsHashOf (s : State) (msg : List Byte) : Prop where
  h : s.h = Reference.toDigest (Reference.digest msg)
  wk : s.wk = Reference.toWorking (Reference.digest msg)
  hex : s.hex = Vector.ofFn fun j => .written (hexText (Reference.toDigest (Reference.digest msg)) j)
  w : s.w = Vector.ofFn fun i => .written ((lastSchedule msg).getD i.val 0)
  plen : s.plen = BitVec.ofNat 32 (padLength msg.length)
  rcnt : s.rcnt = 0

/-- INIT loads the digest the reference starts from (R170). -/
theorem initEffect_reference (s : State) :
    (initEffect s).h = Reference.toDigest (0x67452301, 0xEFCDAB89, 0x98BADCFE, 0x10325476, 0xC3D2E1F0) := by
  simp [initEffect, iv, Reference.toDigest]

theorem blocks_padEffect_reference {s : State} {msg : List Byte} (hc : s.cfg.wf) (hf : s.PadFits)
    (hmsg : s.HoldsMessage msg) : (padEffect s).blocks = (Reference.pad msg).length / 64 := by
  rw [State.blocks, toNat_padEffect_plen hc hf, Reference.length_pad, hmsg.1]

/-- The digest, W and the count of free values HASH leaves are the reference's; a written message draws none. -/
theorem hashEffect_reference {s : State} {msg : List Byte} (hc : s.cfg.wf) (hf : s.PadFits)
    (hmsg : s.HoldsMessage msg) :
    (hashEffect s).h = Reference.toDigest (Reference.digest msg) ∧ (hashEffect s).draws = s.draws ∧
      (hashEffect s).w = Vector.ofFn fun i => .written ((lastSchedule msg).getD i.val 0) := by
  obtain ⟨hmem, -, hdraws⟩ := initEffect_frame (padEffect s)
  have hdrawsPad : (padEffect s).draws = s.draws := by simp [padEffect]
  have hpos : 0 < (Reference.pad msg).length / 64 := by
    rw [Reference.length_pad, padLength_div]; exact Nat.succ_pos _
  have hpadded : ∀ o, o < 64 * ((Reference.pad msg).length / 64) →
      (initEffect (padEffect s)).mem.find o = .written ((Reference.pad msg).getD o 0) := by
    intro o ho
    rw [hmem]
    exact find_padEffect_reference hf hmsg (by rw [Reference.length_pad] at ho; omega)
  obtain ⟨hdigest, hdrawsBlocks, hw, -⟩ := hashBlocks_reference (initEffect_reference (padEffect s)) hpadded
  obtain ⟨hh, -, hwEncode, hdrawsEncode⟩ :=
    encodeEffect_frame (hashBlocks ((Reference.pad msg).length / 64) (initEffect (padEffect s)))
  rw [hashEffect, blocks_padEffect_reference hc hf hmsg]
  refine ⟨hh.trans hdigest, ?_, State.w_eq_ofFn fun i => ?_⟩
  · rw [hdrawsEncode, hdrawsBlocks, hdraws, hdrawsPad]
  · exact (State.wElem_congr hwEncode _).trans (hw i.val hpos i.isLt)

/-- HASH of a written message: the reference's results in the registers, the padding in M, and nothing else but the
completion fields. -/
theorem exec_hash_of_message {s : State} {msg : List Byte} (hc : s.cfg.wf) (hf : s.PadFits)
    (hmsg : s.HoldsMessage msg) :
    ∃ t, exec .hash s = .next t ∧ t.HoldsHashOf msg ∧ t.mem = (padEffect s).mem ∧ t.draws = s.draws ∧
      s.CompletedOk t ∧ s.SameHostSide t := by
  obtain ⟨t, ht, hdone, hh, hwk, hw, hhex, hmem, hplen, hrcnt, hdraws, -⟩ := exec_fields_of_ok (body_hash hf)
  obtain ⟨hpadded, hpad, hzero⟩ := hashBody_frame (body_hash hf)
  obtain ⟨hdigest, hnone, hschedule⟩ := hashEffect_reference hc hf hmsg
  refine ⟨t, ht, ⟨hh.trans hdigest, ?_, ?_, hw.trans hschedule, ?_, hrcnt.trans hzero⟩, hmem.trans hpadded,
    hdraws.trans hnone, hdone, (exec_keeps_hostSide ht).1⟩
  · rw [hwk, wk_hashEffect hc hf, hdigest, Reference.ofVec_toDigest]
  · rw [hhex, hex_hashEffect, hdigest]
  · rw [hplen, hpad, padEffect_plen, hmsg.1]

/-- PLEN holds the length of the reference's padding (R130, R134). -/
theorem toNat_plen_of_holdsHashOf {s t : State} {msg : List Byte} (hc : s.cfg.wf) (hf : s.PadFits)
    (hmsg : s.HoldsMessage msg) (hhash : t.HoldsHashOf msg) : t.plen.toNat = (Reference.pad msg).length := by
  rw [hhash.plen, ← hmsg.1, ← padEffect_plen, toNat_padEffect_plen hc hf, Reference.length_pad, hmsg.1]

/-- Settles O50: the registers hold the reference's results, and M its padding. -/
theorem hashComputesSha1 : Obligations.HashComputesSha1 := by
  intro s msg hc hf hmsg
  obtain ⟨t, ht, hhash, hmem, hdraws, hdone, -⟩ := exec_hash_of_message hc hf hmsg
  have hplen := toNat_plen_of_holdsHashOf hc hf hmsg hhash
  refine ⟨t, ht, hhash.h, hhash.wk, fun j hj => ?_, fun o ho => ?_, hplen, fun i hi => ?_, hhash.rcnt, hdraws, hdone⟩
  · rw [State.hexElem_eq _ hj, ← hexText_reference _ j hj]
    simp [hhash.hex]
  · rw [hmem]
    exact find_padEffect_reference hf hmsg (by rw [← Reference.length_pad, ← hplen]; exact ho)
  · rw [State.wElem_eq _ hi]
    simp [hhash.w, lastSchedule]

/-! ## HASH and the message alone (R222) -/

/-- Padding starts at LEN, so it keeps the message. -/
theorem holdsMessage_of_padded {s t : State} {msg : List Byte} (hmsg : s.HoldsMessage msg) (hlen : t.len = s.len)
    (hmem : t.mem = (padEffect s).mem) : t.HoldsMessage msg := by
  obtain ⟨hlength, hbytes⟩ := hmsg
  refine ⟨by rw [hlen, hlength], fun o ho => ?_⟩
  rw [hmem, find_padEffect_of_outside (.inl (by rw [hlength]; exact ho))]
  exact hbytes o ho

theorem State.SameHostSide.len {s t : State} (h : s.SameHostSide t) : t.len = s.len := by
  obtain ⟨-, -, hlo, hhi, -⟩ := h
  rw [State.len, State.len, hlo, hhi]

/-- The registers HASH writes agree wherever they hold the results for one message. -/
theorem State.HoldsHashOf.agree {s t : State} {msg : List Byte} (hs : s.HoldsHashOf msg) (ht : t.HoldsHashOf msg) :
    s.h = t.h ∧ s.wk = t.wk ∧ s.hex = t.hex ∧ s.w = t.w ∧ s.plen = t.plen ∧ s.rcnt = t.rcnt :=
  ⟨hs.h.trans ht.h.symm, hs.wk.trans ht.wk.symm, hs.hex.trans ht.hex.symm, hs.w.trans ht.w.symm,
    hs.plen.trans ht.plen.symm, hs.rcnt.trans ht.rcnt.symm⟩

/-- Of two successes in a row the second finds the completion fields as it writes them (R242). -/
theorem sameControl_of_completedOk_twice {s t u : State} (ht : s.CompletedOk t) (hst : s.SameHostSide t)
    (hu : t.CompletedOk u) (htu : t.SameHostSide u) : t.SameControl u := by
  obtain ⟨hpending, hstatus, -, hirq⟩ := ht
  obtain ⟨-, hctrl, -⟩ := hst
  obtain ⟨hpending', hstatus', herrcmd, hirq'⟩ := hu
  obtain ⟨hcfg, hctrl', hlo, hhi, -, hagenda, hreply⟩ := htu
  refine ⟨hcfg, hctrl', ?_, herrcmd, hlo, hhi, hpending'.trans hpending.symm, ?_, hagenda, hreply⟩
  · rw [hstatus', hstatus]; rfl
  · rw [hirq', hirq, hctrl]

/-- States with the same control side and the same datapath are equal. -/
theorem State.SameControl.eq_of_datapath {s t : State} (hc : s.SameControl t)
    (hreg : t.h = s.h ∧ t.wk = s.wk ∧ t.hex = s.hex ∧ t.w = s.w ∧ t.plen = s.plen ∧ t.rcnt = s.rcnt)
    (hmem : t.mem = s.mem) (hdraws : t.draws = s.draws) : t = s := by
  obtain ⟨hcfg, hctrl, hstatus, herrcmd, hlo, hhi, hpending, hirq, hagenda, hreply⟩ := hc
  obtain ⟨hh, hwk, hhex, hw, hplen, hrcnt⟩ := hreg
  cases s
  cases t
  simp_all only

/-- Settles O52: the results are a function of the message. A second HASH finds the message, the padding and the
completion fields as the first left them. -/
theorem hashDependsOnMessageOnly : Obligations.HashDependsOnMessageOnly := by
  constructor
  · intro s1 s2 msg hc1 hc2 hf1 hf2 hmsg1 hmsg2
    obtain ⟨t1, ht1, hash1, -⟩ := exec_hash_of_message hc1 hf1 hmsg1
    obtain ⟨t2, ht2, hash2, -⟩ := exec_hash_of_message hc2 hf2 hmsg2
    exact ⟨t1, t2, ht1, ht2, hash1.agree hash2⟩
  · intro s t msg hc hwf hf hmsg h
    obtain ⟨t', ht, hashT, hmem, -, hdone, hhost⟩ := exec_hash_of_message hc hf hmsg
    obtain rfl := Host.Outcome.next.inj (ht.symm.trans h)
    have hcfg : t'.cfg = s.cfg := hhost.1
    have hlen : t'.len = s.len := hhost.len
    have hfits : t'.PadFits := by rw [State.PadFits, hlen, hcfg]; exact hf
    obtain ⟨u, hu, hashU, hmemU, hdraws, hdoneU, hhostU⟩ :=
      exec_hash_of_message (hcfg ▸ hc) hfits (holdsMessage_of_padded hmsg hlen hmem)
    have hcontrol : t'.SameControl u := sameControl_of_completedOk_twice hdone hhost hdoneU hhostU
    have hpadded : u.mem = t'.mem := hmemU.trans (padEffect_mem_of_padded hwf hlen hmem)
    rw [hu, hcontrol.eq_of_datapath (hashU.agree hashT) hpadded hdraws]

/-! ## Frame -/

/-- Settles O56: an error leaves all of M, and a success what PAD leaves of it. -/
theorem frameOfHash : Obligations.FrameOfHash := by
  intro s t h
  obtain ⟨hhost, hsuccess⟩ := exec_keeps_hostSide h
  refine ⟨hhost, hsuccess, fun o ho => ?_⟩
  rcases exec_cases .hash s with ⟨e, -, h'⟩ | ⟨u, hb, h'⟩ <;> obtain rfl := Host.Outcome.next.inj (h'.symm.trans h)
  · rfl
  · have hmem : u.mem = (padEffect s).mem := (hashBody_frame hb).1
    exact (congrArg (Memory.find · o) hmem).trans (find_padEffect_of_outside ho)

end Sys2Proof.Machine
end

section
/-! Completion (R242 to R248): every turn of CORE on a pending command ends in one completion with the first error of
R244 (O7), which on an error is all that it does (O8), which a bus error commutes with (O9), and which with the ways of
clearing it drives irq (O25). -/

namespace Sys2Proof.Machine

/-! ## The first check that fails (R244) -/

/-- Where PAD's checks pass, neither of R240's two causes for PAD and HASH holds (R131). -/
theorem expectedError_encode_of_padFits {i : Instr} {s : State} (hi : i = .pad ∨ i = .hash) (hf : s.PadFits) :
    expectedError (encode i) s = none := by
  obtain ⟨hop, himm⟩ := toNat_encode_fields i
  obtain ⟨hlen, hcap⟩ := hf
  have hroom : ¬ 64 * s.cfg.bufBlocks < 64 * ((s.len.toNat + 8) / 64 + 1) := Nat.not_lt.mpr hcap
  simp only [expectedError, hop, himm, ← State.len_toNat, Nat.not_le.mpr hlen, hroom, and_false, if_false]
  rcases hi with rfl | rfl <;> simp [Instr.opcode, Instr.imm24]

/-- A command whose checks pass has none of the causes of R240. -/
theorem expectedError_encode_of_body_ok {i : Instr} {s t : State} (h : Instr.body i s = .ok t) :
    expectedError (encode i) s = none := by
  obtain ⟨hop, himm⟩ := toNat_encode_fields i
  cases i with
  | nop | init | expand | loadw | compress | encode =>
    simp only [expectedError, hop, himm]
    simp [Instr.opcode, Instr.imm24]
  | pad => exact expectedError_encode_of_padFits (.inl rfl) (padBody_eq_ok h).1
  | hash => exact expectedError_encode_of_padFits (.inr rfl) (hashBody_eq_ok h).1
  | sched b =>
    have hrange : b < s.plen.toNat / 64 := (schedBody_eq_ok h).1
    have himm_le : (Instr.sched b).imm24.toNat ≤ b := Nat.mod_le _ _
    have hin : ¬ s.plen.toNat / 64 ≤ (Instr.sched b).imm24.toNat := by omega
    simp only [expectedError, hop, himm]
    simp [Instr.opcode, hin]
  | round =>
    have hcount := (roundBody_eq_ok h).1
    simp only [expectedError, hop, himm]
    simp [Instr.opcode, Instr.imm24, hcount]
  | feedfwd =>
    have hcount := (feedfwdBody_eq_ok h).1
    simp only [expectedError, hop, himm]
    simp [Instr.opcode, Instr.imm24, hcount]

/-! ## One completion for each pending command (R105, R242) -/

/-- CORE's step on a pending command completes it with the error the spec names, if any: from the state before the
command on an error, and else from one the command's effect leaves, whose control side is untouched. -/
theorem step_completes {s : State} {cmd : Word} (hturn : s.CoreHasTurn) (hp : s.pending = some cmd) :
    ∃ u, step s = .next (u.complete cmd (expectedError cmd s)) ∧ s.turnTaken.SameControl u ∧
      (expectedError cmd s ≠ none → u = s.turnTaken) := by
  obtain ⟨t, h⟩ := coreTurn_answers s.turnTaken
  rw [step_core hturn, h]
  rcases eq_of_coreTurn h with ⟨hnone, -⟩ | ⟨cmd', e, hp', he, rfl⟩ | ⟨cmd', i, u, hp', hd, hb, rfl⟩
  · exact absurd (hnone.symm.trans hp) nofun
  · obtain rfl : cmd' = cmd := Option.some.inj (hp'.symm.trans hp)
    have he : expectedError cmd' s = some e := he
    exact ⟨s.turnTaken, by rw [he], .refl _, fun _ => rfl⟩
  · obtain rfl : cmd' = cmd := Option.some.inj (hp'.symm.trans hp)
    obtain rfl := (wf_and_encode_of_decode hd).2
    have hnone : expectedError (encode i) s = none := expectedError_encode_of_body_ok (s := s.turnTaken) hb
    exact ⟨u, by rw [hnone], body_sameControl hb, absurd hnone⟩

/-- Settles O7: the fields are those of the one completion, whose control side is that of the state before. -/
theorem completionRecordsFirstError : Obligations.CompletionRecordsFirstError := by
  intro s cmd hturn hp
  obtain ⟨u, hstep, hsame, -⟩ := step_completes hturn hp
  have hstatus : u.status = s.status := hsame.status
  have hctrl : u.ctrl = s.ctrl := hsame.ctrl
  have herrcmd : u.errcmd = s.errcmd := hsame.errcmd
  rw [State.complete_eq, hstatus, herrcmd] at hstep
  refine ⟨_, hstep, rfl, rfl, rfl, ?_, rfl, rfl, rfl, hctrl, congrArg Ctrl.ie hctrl⟩
  show resultCode (expectedError cmd s) = _
  cases expectedError cmd s with
  | none => rfl
  | some e => cases e <;> rfl

/-- Settles O8: on an error the completion starts from the state before the command. -/
theorem errorsArePrecise : Obligations.ErrorsArePrecise := by
  intro s cmd e hturn hp he
  obtain ⟨u, hstep, -, hbefore⟩ := step_completes hturn hp
  rw [hstep, hbefore (he ▸ nofun), he]
  exact raiseError_eq cmd e s.turnTaken

/-! ## A bus error before or after a completion (R248) -/

/-- No command's checks or effect see BUSERR. -/
theorem body_busError (i : Instr) (s : State) : Instr.body i s.busError = (Instr.body i s).map State.busError := by
  have hcommute := body_withControl s.pending s.status.busError s.irq s i
  cases hb : Instr.body i s with
  | error e => rw [hb] at hcommute; exact hcommute
  | ok u =>
    have hsame := body_sameControl hb
    have hu : u.withControl s.pending s.status.busError s.irq = u.busError := by
      rw [← hsame.pending, ← hsame.status, ← hsame.irq]; rfl
    rw [hb] at hcommute
    exact hcommute.trans (congrArg Except.ok hu)

/-- Completion keeps BUSERR, and writes nothing that depends on it (R242). -/
theorem exec_busError {i : Instr} {s t : State} (h : exec i s = .next t) : exec i s.busError = .next t.busError := by
  rw [exec_eq, body_busError]
  rcases exec_cases i s with ⟨e, hb, h'⟩ | ⟨u, hb, h'⟩ <;> obtain rfl := Host.Outcome.next.inj (h'.symm.trans h)
  · rw [hb]; rfl
  · rw [hb]; rfl

/-- Settles O9: decode sees PENDING alone, and both of its ends commute with a bus error. -/
theorem busErrorAndCompletionCommute : Obligations.BusErrorAndCompletionCommute := by
  intro s t hturn hsome h
  obtain ⟨cmd, hp⟩ := Option.isSome_iff_exists.mp hsome
  show step s.busError = .next t.busError
  cases hd : decode cmd with
  | error e =>
    obtain rfl := Host.Outcome.next.inj ((step_of_decode_error hturn hp hd).symm.trans h)
    exact step_of_decode_error (s := s.busError) hturn hp hd
  | ok i =>
    rw [step_of_decode_ok (s := s.busError) hturn hp hd]
    exact exec_busError ((step_of_decode_ok hturn hp hd).symm.trans h)

/-! ## irq (R250) -/

/-- R39, R70: after a refused access irq is the level it was at, for BUSERR has no part in it. -/
theorem State.Inv.irq_busError {s : State} (h : s.Inv) (rest : List Event) :
    (s.setAgenda rest).busError.refreshIrq.irq = s.irq := h.irqLevel.symm

/-- Settles O25: the level is part of the invariant, completion and each clearing write set it, and a bus error leaves
it. -/
theorem interruptLevelAndClearing : Obligations.InterruptLevelAndClearing := by
  refine ⟨fun s t hinv h => (stepKeepsInvariant s t hinv h).irqLevel, fun s t cmd hturn hp h => ?_,
    fun s t rest v h => ⟨fun hag hdone => ?_, fun hag hie => ?_, fun hag hidle => ?_, fun hag => ?_⟩,
    fun s a sz v rest ha hirq hinv => ⟨fun hrefused hag => ?_, fun hrefused hag => ?_⟩⟩
  · obtain ⟨t', h', -, -, hdone, -, -, -, -, -, hirq⟩ := completionRecordsFirstError s cmd hturn hp
    obtain rfl := Host.Outcome.next.inj (h'.symm.trans h)
    exact ⟨hirq, hdone⟩
  · have h' := step_write_target hag (by decide) (x := .reg .status) rfl (.inr rfl) rfl
    obtain rfl := Host.Outcome.next.inj (h'.symm.trans h)
    simp [Status.clear, hdone]
  · have h' := step_write_target hag (by decide) (x := .reg .ctrl) rfl (.inr rfl) rfl
    obtain rfl := Host.Outcome.next.inj (h'.symm.trans h)
    exact congrArg (· && s.status.done) hie
  · obtain rfl := Host.Outcome.next.inj ((step_write_cmd_idle hidle hag).symm.trans h)
    rfl
  · rw [step, hag] at h
    obtain rfl := Host.Outcome.next.inj h
    rfl
  · exact ⟨_, step_read_refused ha hag hrefused, (hinv.irq_busError rest).trans hirq⟩
  · exact ⟨_, step_write_refused ha hag hrefused, (hinv.irq_busError rest).trans hirq⟩

end Sys2Proof.Machine
end

section
/-! Reset and fairness: the state after reset meets the invariant (O10), a reset step gives every register its reset
value (O16), and CORE's turn, which comes when the agenda has run out, leaves no command pending (O14). -/

namespace Sys2Proof.Machine

/-! ## Fairness (R300) -/

/-- A step takes the first entry off the agenda and writes nothing else of it (R76). -/
theorem step_agenda {s t : State} (h : step s = .next t) : t.agenda = s.agenda.tail := by
  rcases step_cases s with
    ⟨-, h'⟩ | ⟨addr, sz, rest, hag, h'⟩ | ⟨addr, sz, v, rest, hag, h'⟩ | ⟨rest, hag, h'⟩ <;> rw [h'] at h
  · obtain ⟨-, -, hagenda, -⟩ := coreTurn_frame h
    exact hagenda
  · obtain rfl := Host.Outcome.next.inj h
    obtain ⟨-, -, -, -, -, -, -, hagenda⟩ := hostRead_frame (s.setAgenda rest) addr sz
    rw [hagenda, hag]; rfl
  · obtain rfl := Host.Outcome.next.inj h
    obtain ⟨-, -, -, -, -, -, -, hagenda⟩ := hostWrite_frame (s.setAgenda rest) addr sz v
    rw [hagenda, hag]; rfl
  · obtain rfl := Host.Outcome.next.inj h
    rw [hag]; rfl

/-- CORE's turn leaves nothing pending, whether it completed a command or found none (R105, R242). -/
theorem pending_none_of_coreHasTurn {s t : State} (hturn : s.CoreHasTurn) (h : step s = .next t) :
    t.pending = none := by
  rw [step_core hturn] at h
  obtain ⟨-, -, -, hpending⟩ := coreTurn_frame h
  exact hpending

/-- Once the agenda has run out and CORE has had the turn that follows, nothing is pending: a command accepted before
or on the way has completed, or a reset has dropped it. -/
theorem run_agenda_length_succ_pending_none (s : State) :
    ∃ t, core.run (s.agenda.length + 1) s = .next t ∧ t.pending = none := by
  induction hag : s.agenda generalizing s with
  | nil =>
    obtain ⟨t, h⟩ := noStepEverStops s
    exact ⟨t, core_run_succ h 0, pending_none_of_coreHasTurn (.inl hag) h⟩
  | cons e rest ih =>
    obtain ⟨u, h⟩ := noStepEverStops s
    have hrest : u.agenda = rest := by rw [step_agenda h, hag]; rfl
    obtain ⟨t, hrun, hnone⟩ := ih u hrest
    exact ⟨t, (core_run_succ h _).trans hrun, hnone⟩

/-- Settles O14: the bound is reached, by the turn CORE has when the agenda has run out. -/
theorem acceptedCommandCompletes : Obligations.AcceptedCommandCompletes := by
  intro s _
  obtain ⟨t, hrun, hnone⟩ := run_agenda_length_succ_pending_none s
  exact ⟨_, t, le_rfl, hrun, hnone⟩

/-! ## Reset (R280, R281) -/

/-- Settles O10: the reference parameters are in their ranges too (logs 1 and 2). -/
theorem resetMeetsInvariant : Obligations.ResetMeetsInvariant :=
  ⟨fun _ h => inv_resetOf h, inv_resetOf (c := Config.reference) (by decide)⟩

/-- R28: LEN is 0 after reset. -/
theorem len_resetOf (c : Config) : (State.resetOf c).len = 0 := by simp [State.len, State.resetOf]

/-- R24: STATUS reads 0 after reset. -/
theorem status_resetOf (c : Config) : (State.resetOf c).regValue .status = 0 :=
  show Status.word ⟨false, false, false, false, 0⟩ = 0 by decide

/-- R281: after reset every element of W is unwritten. -/
theorem wElem_resetOf (c : Config) (i : Nat) : (State.resetOf c).wElem i = .unwritten := by
  rcases Nat.lt_or_ge i 80 with h | h
  · rw [State.wElem_eq _ h]; exact Vector.getElem_replicate h
  · exact State.wElem_of_ge _ h

/-- Beyond its 40 elements HEX has nothing written. -/
theorem State.hexElem_of_ge (s : State) {j : Nat} (h : 40 ≤ j) : s.hexElem j = .unwritten := by
  simp [State.hexElem, h]

/-- R281: after reset every element of HEX is unwritten. -/
theorem hexElem_resetOf (c : Config) (j : Nat) : (State.resetOf c).hexElem j = .unwritten := by
  rcases Nat.lt_or_ge j 40 with h | h
  · rw [State.hexElem_eq _ h]; exact Vector.getElem_replicate h
  · exact State.hexElem_of_ge _ h

/-- Settles O16: the state is the reset state of the same parameters, with the model's own fields kept (logs 4 and
17). -/
theorem resetSetsEveryRegister : Obligations.ResetSetsEveryRegister := by
  intro s rest hag
  have hstep : step s = .next (s.setAgenda rest).applyReset := by rw [step, hag]
  obtain ⟨ctrl_resetOf, -⟩ := controlWriteSetsInterruptEnable
  exact ⟨_, hstep, rfl, rfl, ctrl_resetOf s.cfg, status_resetOf s.cfg, rfl, len_resetOf s.cfg, rfl, rfl, rfl, rfl, rfl,
    fun _ => rfl, wElem_resetOf s.cfg, hexElem_resetOf s.cfg, rfl, rfl, rfl, rfl, rfl⟩

end Sys2Proof.Machine
end
